-- ==== Sys2Proof/Word.lean ====
section
/-! DEFINITION. The two word types of the block: a byte, and the 16 bits of the program counter and of unified addresses. -/

namespace Sys2Proof

/-- A byte: 8 bits, bit 0 least significant (00_scope.md R8). -/
abbrev Byte := BitVec 8

/-- 16 bits: the program counter (10_state.md R10) and unified data addresses (20_memory.md R40). -/
abbrev Word := BitVec 16

end Sys2Proof
end

