-- ==== Sys2Proof/Config.lean ====
section
/-! DEFINITION. What a variant of the block fixes (the two bus widths), and the one free value of the model: the pin levels. -/

namespace Sys2Proof

/-- A variant of the block (00_scope.md R5): the two bus widths, the only implementation parameters.
The spec leaves both OPEN, so every state carries its variant and a statement about every state holds for
every variant. -/
structure Variant where
  /-- PROG_W, 0 to 16: program-address-bus width, 0 meaning no masking. -/
  progW : Fin 17
  /-- DATA_W, 0 to 8: data-address-bus width, internal RAM having 2^DATA_W bytes. -/
  dataW : Fin 9
deriving DecidableEq, Repr

/-- Number of internal RAM bytes, 2^DATA_W (10_state.md R12). -/
def Variant.ramSize (v : Variant) : Nat := 2 ^ v.dataW.val

/-- FREE VALUE (20_memory.md R55): the pin levels of a port at the `n`-th pin sample of a run, when a
port boundary is attached and the environment has queued none. It has no body, so nothing can be proved of it: log entry 5. -/
opaque Config.pinSample : Nat → Fin 4 → Byte

end Sys2Proof
end

