-- ==== Sys2Proof/Machine/State.lean ====
section
/-! DEFINITION. The state of the block, the reasons a step can stop, and the state after reset. -/

namespace Sys2Proof.Machine

/-- A byte array held as (address, byte) pairs in one canonical form (`Memory.wf`). -/
abbrev Memory := List Host.Cell

/-- Why the machine stops: the error taxonomy of 60_exceptions.md R160. -/
inductive Fault where
  /-- The first byte `op` of an instruction, fetched from the masked address `addr`, is none of the 45 first
  bytes. Raised by a step in Halted, which returns the recorded fault again (60_exceptions.md R161, R163).
  Safe: the machine stops where the hardware stops. -/
  | unimplementedOpcode (op : Byte) (addr : Word)
  /-- An index outside the allocated arrays. In the taxonomy, raised by nothing: every access is routed
  before it indexes (60_exceptions.md R162, log entry 9). -/
  | addressOutOfRange (addr : Word)
deriving DecidableEq, Repr

/-- Why the model has no meaning for an instruction. -/
inductive Refusal where
  /-- No meaning yet for the instruction of this mnemonic. Raised by a refused arm of `exec` alone; none is
  left. Safe. -/
  | notModelled (mnemonic : String)
deriving DecidableEq, Repr

/-- The run state (10_state.md R23) with the fault recorded at the halt (60_exceptions.md R161). -/
inductive RunState where
  | fetching
  /-- UnimplementedOpcode was raised for the byte `op` fetched from the masked address `addr`. -/
  | halted (op : Byte) (addr : Word)
deriving DecidableEq, Repr

/-- Whether the environment answers pin samples and takes port drives (60_exceptions.md R165). -/
inductive PortBoundary where
  | attached
  /-- nothing is attached: every pin sample is 0x00, every drive goes nowhere -/
  | unbound
deriving DecidableEq, Repr

/-- A boundary event: an observable of the block, in program order (20_memory.md R55, R56, R65). -/
inductive Event where
  /-- `PinSample(p)` was answered with `v`. -/
  | pin (p : Fin 4) (v : Byte)
  /-- `PortDrive(p, v)`. -/
  | drive (p : Fin 4) (v : Byte)
deriving DecidableEq, Repr

/-- What a step returns to its caller (60_exceptions.md R160). -/
inductive StepResult where
  /-- the instruction completed, in this many clock cycles -/
  | ok (clocks : Nat)
  | fault (f : Fault)
deriving DecidableEq, Repr

/-- The state. The spec's own state is `pc`, `iram`, `sfr`, `rmw` and `run` (10_state.md R24); `variant` is
the configuration reset fixes; the rest is the environment's side, as plain data. -/
structure State where
  /-- PROG_W and DATA_W, fixed by reset (00_scope.md R5, 70_reset_and_hazards.md R190): log entry 1 -/
  variant : Variant
  /-- program counter (10_state.md R10) -/
  pc : Word
  /-- internal RAM, by address (10_state.md R12) -/
  iram : Memory
  /-- the SFR window, by offset 0x00 to 0xFF: ACC, PSW, SP, P0 to P3 and plain bytes (10_state.md R13 to R18) -/
  sfr : Memory
  /-- read-modify-write flag (10_state.md R22) -/
  rmw : Bool
  /-- run state and recorded fault (10_state.md R23) -/
  run : RunState
  /-- program memory as the environment answers it, by address (20_memory.md R58), nothing listed where no
  program boundary is attached: log entry 4 -/
  prog : Memory
  /-- the environment's port boundary, fixed before reset (60_exceptions.md R165, R177): log entry 21 -/
  ports : PortBoundary
  /-- pin samples the environment has queued, next first (20_memory.md R55): log entry 5 -/
  pins : List Byte
  /-- number of pin samples drawn so far, the index of the free pin value: log entry 5 -/
  pinDraws : Nat
  /-- the boundary events so far, oldest first (20_memory.md R65): log entry 6 -/
  events : List Event
  /-- what the last step returned (30_encoding.md R88): log entry 7 -/
  result : Option StepResult
deriving DecidableEq, Repr

/-- The state right after reset (10_state.md R26, 70_reset_and_hazards.md R190). The named values are the
spec's. The variant (PROG_W = 12, DATA_W = 7) is the one of the spec's test vectors, log entry 1; the bytes
the spec leaves unspecified read 0x00, log entries 2 and 3; program memory is unbound, log entry 4; the ports
are attached, log entry 21. -/
def State.reset : State where
  variant := ⟨12, 7⟩
  pc := 0x0000
  iram := []
  sfr := [(0x80, 0xFF), (0x81, 0x07), (0x90, 0xFF), (0xA0, 0xFF), (0xB0, 0xFF)]
  rmw := false
  run := .fetching
  prog := []
  ports := .attached
  pins := []
  pinDraws := 0
  events := []
  result := none

end Sys2Proof.Machine
end

