-- ==== Sys2Proof/Machine/Ops.lean ====
section
/-! DEFINITION. Named operations over the state: the arrays, the ports, the unified path, the halt. -/

namespace Sys2Proof.Machine

/-! ### The arrays and the registers in them -/

/-- `IRAM[a]`, the stored byte (10_state.md R12). -/
def State.iramAt (s : State) (a : Nat) : Byte := s.iram.read a

/-- `SFRW[o]`, the stored byte: for a port its latch (10_state.md R13). -/
def State.sfrAt (s : State) (o : Byte) : Byte := s.sfr.read o.toNat

/-- `IRAM[a] <- v`. -/
def State.setIram (s : State) (a : Nat) (v : Byte) : State := { s with iram := s.iram.write a v }

/-- `SFRW[o] <- v`. -/
def State.setSfr (s : State) (o v : Byte) : State := { s with sfr := s.sfr.write o.toNat v }

/-- `pc <- a`. -/
def State.setPc (s : State) (a : Word) : State := { s with pc := a }

/-- `rmw <- x` (10_state.md R22). -/
def State.setRmw (s : State) (x : Bool) : State := { s with rmw := x }

/-- Offset of the accumulator (10_state.md R14). -/
def accOffset : Byte := 0xE0

/-- Offset of the program status word (10_state.md R15). -/
def pswOffset : Byte := 0xD0

/-- Offset of the stack pointer (10_state.md R16). -/
def spOffset : Byte := 0x81

/-- Offset of the latch of port `p`, 0x80 + 16*p (10_state.md R17). -/
def portOffset (p : Fin 4) : Byte := BitVec.ofNat 8 (0x80 + 16 * p.val)

/-- `ACC` (10_state.md R14). -/
def State.acc (s : State) : Byte := s.sfrAt accOffset

/-- `PSW` (10_state.md R15). -/
def State.psw (s : State) : Byte := s.sfrAt pswOffset

/-- `SP` (10_state.md R16). -/
def State.sp (s : State) : Byte := s.sfrAt spOffset

/-- `ACC <- v`: the accumulator's byte of the window, no port involved (10_state.md R14). -/
def State.setAcc (s : State) (v : Byte) : State := s.setSfr accOffset v

/-- `PSW <- v`: the status word's byte of the window (10_state.md R15). -/
def State.setPsw (s : State) (v : Byte) : State := s.setSfr pswOffset v

/-! ### The boundary of the ports -/

/-- The port whose latch is at an SFR offset, if any (10_state.md R17). -/
def portAt (o : Byte) : Option (Fin 4) :=
  if o = 0x80 then some 0
  else if o = 0x90 then some 1
  else if o = 0xA0 then some 2
  else if o = 0xB0 then some 3
  else none

/-- The answer of an attached environment to the next `PinSample(p)`: its next queued byte, or a free value
(20_memory.md R55, log entry 5). -/
def attachedPin (s : State) (p : Fin 4) : Byte :=
  match s.pins with
  | v :: _ => v
  | [] => Config.pinSample s.pinDraws p

/-- The answer to the next `PinSample(p)`: 0x00 where no port boundary is attached (60_exceptions.md R165,
20_memory.md R55), else the environment's. -/
def nextPin (s : State) (p : Fin 4) : Byte :=
  match s.ports with
  | .attached => attachedPin s p
  | .unbound => 0x00

/-- The state after one `PinSample(p)`: the draw is counted and recorded (20_memory.md R55). -/
def drawPin (s : State) (p : Fin 4) : State :=
  { s with
    pins := s.pins.tail
    pinDraws := s.pinDraws + 1
    events := s.events ++ [.pin p (nextPin s p)] }

/-- `PortDrive(p, v)` (20_memory.md R56). The history records it whatever is attached, and nothing reads it
back, so that with nothing attached it goes nowhere (60_exceptions.md R165). -/
def portDrive (s : State) (p : Fin 4) (v : Byte) : State := { s with events := s.events ++ [.drive p v] }

/-! ### The SFR window path (sfr_window_mapper) -/

/-- `SfrRead(o)`: a port read is the latch ANDed with a fresh pin sample unless the read-modify-write flag
is set (20_memory.md R43). -/
def sfrRead (s : State) (o : Byte) : Byte × State :=
  match portAt o with
  | some p => if s.rmw then (s.sfrAt o, s) else (s.sfrAt o &&& nextPin s p, drawPin s p)
  | none => (s.sfrAt o, s)

/-- `SfrWrite(o, v)`: ignored below 0x80; a write to a port latch drives the port (20_memory.md R44). -/
def sfrWrite (s : State) (o v : Byte) : State :=
  if o < 0x80 then s
  else
    match portAt o with
    | some p => portDrive (s.setSfr o v) p v
    | none => s.setSfr o v

/-! ### The unified path (memory_address_decoder) -/

/-- Where a unified address leads (20_memory.md R41, R42): the internal RAM test comes first. -/
inductive Target where
  | ram (a : Nat)
  | window (o : Byte)
  | nothing
deriving DecidableEq, Repr

/-- Routing of a unified address. -/
def route (v : Variant) (u : Word) : Target :=
  if u.toNat < v.ramSize then .ram u.toNat
  else if 0x100 ≤ u.toNat ∧ u.toNat < 0x200 then .window (u.setWidth 8)
  else .nothing

/-- `ReadByte(u)` (20_memory.md R41). -/
def readByte (s : State) (u : Word) : Byte × State :=
  match route s.variant u with
  | .ram a => (s.iramAt a, s)
  | .window o => sfrRead s o
  | .nothing => (0x00, s)

/-- `WriteByte(u, v)` (20_memory.md R42). -/
def writeByte (s : State) (u : Word) (v : Byte) : State :=
  match route s.variant u with
  | .ram a => s.setIram a v
  | .window o => sfrWrite s o v
  | .nothing => s

/-- The byte stored at a unified address, read without any side effect: for a port its latch. This is the
model's own look at data memory, in which frames are stated. -/
def State.stored (s : State) (u : Word) : Byte :=
  match route s.variant u with
  | .ram a => s.iramAt a
  | .window o => s.sfrAt o
  | .nothing => 0x00

/-! ### The halt -/

/-- Taking `UnimplementedOpcode(op, addr)` (60_exceptions.md R161), in the state after the opcode byte was
fetched, so that pc is already past it: the engine halts, records the fault and returns it, and nothing
else changes. There is no return from it but reset, `hostReset` (60_exceptions.md R163, R168). -/
def haltUnimplemented (s : State) (op : Byte) (addr : Word) : State :=
  { s with run := .halted op addr, result := some (.fault (.unimplementedOpcode op addr)) }

end Sys2Proof.Machine
end

