-- ==== Sys2Proof/Machine/Flags.lean ====
section
/-! DEFINITION. The alu_8051 and the flag_unit: addition, decrement, arithmetic flags, parity. -/

namespace Sys2Proof.Machine

/-- The 9-bit sum of 42_arithmetic.md R120. -/
def sum9 (a b : Byte) (cin : Bool) : BitVec 9 :=
  a.setWidth 9 + b.setWidth 9 + (BitVec.ofBool cin).setWidth 9

/-- The carry-propagation vector of 42_arithmetic.md R120: bit k is the carry into bit k. -/
def carryVector (a b : Byte) (cin : Bool) : BitVec 9 :=
  a.setWidth 9 ^^^ b.setWidth 9 ^^^ sum9 a b cin

/-- What the adder returns. -/
structure AluOut where
  sum : Byte
  cy : Bool
  ac : Bool
  ov : Bool
deriving DecidableEq, Repr

/-- `AddWithCarry(a, b, cin)` (42_arithmetic.md R120). The auxiliary carry is bit 4 of the carry vector, by
90_conflicts.md C3. -/
def addWithCarry (a b : Byte) (cin : Bool) : AluOut where
  sum := (sum9 a b cin).setWidth 8
  cy := (sum9 a b cin).getLsbD 8
  ac := (carryVector a b cin).getLsbD 4
  ov := (carryVector a b cin).getLsbD 8 ^^ (carryVector a b cin).getLsbD 7

/-- `Dec8(v)` (42_arithmetic.md R121). -/
def dec8 (v : Byte) : Byte := v - 1

/-- One flag at its place in a status word. -/
def flagBit (x : Bool) (k : Nat) : Byte := (BitVec.ofBool x).setWidth 8 <<< k

/-- `SetArithFlags(cy, ac, ov)` (42_arithmetic.md R122): PSW bits 7, 6 and 2, the other five kept. -/
def setArithFlags (s : State) (cy ac ov : Bool) : State :=
  s.setPsw ((s.psw &&& 0x3B) ||| flagBit cy 7 ||| flagBit ac 6 ||| flagBit ov 2)

/-- XOR of the eight bits of a byte (10_state.md R19). -/
def parity (a : Byte) : Bool :=
  a.getLsbD 7 ^^ a.getLsbD 6 ^^ a.getLsbD 5 ^^ a.getLsbD 4 ^^
    a.getLsbD 3 ^^ a.getLsbD 2 ^^ a.getLsbD 1 ^^ a.getLsbD 0

/-- `RecomputeParity()` (10_state.md R19): PSW bit 0 becomes the parity of the accumulator. -/
def recomputeParity (s : State) : State :=
  s.setPsw ((s.psw &&& 0xFE) ||| flagBit (parity s.acc) 0)

end Sys2Proof.Machine
end

