-- ==== Sys2Proof/Machine/Operands.lean ====
section
/-! DEFINITION. The operand forms: direct, register-indirect, register and bit addressing, relative targets, and what an assembler writes for a bit address and a relative target. -/

namespace Sys2Proof.Machine

/-! ### Direct addressing -/

/-- The unified address of a direct address: below 0x80 itself, from 0x80 on in the SFR window
(20_memory.md R45). -/
def directAddr (d : Byte) : Word := if d < 0x80 then d.setWidth 16 else 0x100 + d.setWidth 16

/-- `ReadDirect(d)` (20_memory.md R45). -/
def readDirect (s : State) (d : Byte) : Byte × State := readByte s (directAddr d)

/-- `WriteDirect(d, v)` (20_memory.md R46). -/
def writeDirect (s : State) (d v : Byte) : State := writeByte s (directAddr d) v

/-! ### Register-indirect addressing -/

/-- The unified address of a register-indirect address: always below 0x100 (20_memory.md R47). -/
def indirectAddr (a : Byte) : Word := a.setWidth 16

/-- `ReadIndirect(a)` (20_memory.md R47). -/
def readIndirect (s : State) (a : Byte) : Byte × State := readByte s (indirectAddr a)

/-- `WriteIndirect(a, v)` (20_memory.md R48). -/
def writeIndirect (s : State) (a v : Byte) : State := writeByte s (indirectAddr a) v

/-! ### Register addressing (register_file) -/

/-- `RegAddr(n)`: the bank is read from PSW at every access (20_memory.md R50, 10_state.md R20). -/
def regAddr (s : State) (n : Byte) : Byte := (s.psw &&& 0x18) ||| (n &&& 0x7)

/-- The unified address of register `n` of the current bank. -/
def regUnified (s : State) (n : Byte) : Word := (regAddr s n).setWidth 16

/-- `RegRead(n)` (20_memory.md R50). A register lies below 0x100, where a read changes no state
(20_memory.md R41), so only the byte is kept. -/
def regRead (s : State) (n : Byte) : Byte := (readByte s (regUnified s n)).1

/-- `RegWrite(n, v)` (20_memory.md R50). -/
def regWrite (s : State) (n : Byte) (v : Byte) : State := writeByte s (regUnified s n) v

/-! ### Bit addressing (bit_address_resolver) -/

/-- `BitByteAddr(b)`: the direct address of the byte that holds a bit (20_memory.md R51). -/
def bitByteAddr (b : Byte) : Byte :=
  if 0x80 ≤ b then ((b &&& 0x78) >>> 3) * 8 + 0x80 else ((b &&& 0x78) >>> 3) * 1 + 0x20

/-- `BitPos(b)` (20_memory.md R52). -/
def bitPos (b : Byte) : Nat := (b &&& 0x7).toNat

/-- `ReadBit(b)` (20_memory.md R53): it does not set the read-modify-write flag. Part of the resolver's
contract; no instruction uses it. -/
def readBit (s : State) (b : Byte) : Bool × State :=
  ((readDirect s (bitByteAddr b)).1.getLsbD (bitPos b), (readDirect s (bitByteAddr b)).2)

/-- A byte with one bit set or cleared (20_memory.md R54). -/
def withBit (v : Byte) (k : Nat) (x : Bool) : Byte :=
  if x then v ||| (1#8 <<< k) else v &&& ~~~(1#8 <<< k)

/-- `WriteBit(b, x)` (20_memory.md R54): the byte is read with the read-modify-write flag set, so that a port
gives its latch, changed in one bit, and written back. -/
def writeBit (s : State) (b : Byte) (x : Bool) : State :=
  let d := bitByteAddr b
  let r := readDirect (s.setRmw true) d
  (writeDirect r.2 d (withBit r.1 (bitPos b) x)).setRmw false

/-! ### Relative targets -/

/-- pc plus a sign-extended offset, modulo 2^16 (30_encoding.md R82, 40_jumps.md R101, 45_djnz.md R150). -/
def relTarget (pc : Word) (rel : Byte) : Word := pc + rel.signExtend 16

/-! ### What an assembler writes (30_encoding.md R92, log entry 20) -/

/-- The bit address that `byte.k` stands for: `(byte - 0x20)*8 + k` for bytes 0x20 to 0x2F, `byte + k` for
multiples of 8 from 0x80 on; no other byte has bit addresses. -/
def bitAddressOf (byte : Byte) (k : Fin 8) : Option Byte :=
  if 0x20 ≤ byte ∧ byte < 0x30 then some ((byte - 0x20) * 8 + BitVec.ofNat 8 k.val)
  else if 0x80 ≤ byte ∧ byte &&& 0x7 = 0 then some (byte + BitVec.ofNat 8 k.val)
  else none

/-- The offset an assembler writes for a two-byte relative instruction at `a` with target `t`, when the
target is within -128 to +127 of `a + 2`. -/
def assembleRel (a t : Word) : Option Byte :=
  if -128 ≤ (t - (a + 2)).toInt ∧ (t - (a + 2)).toInt ≤ 127 then some ((t - (a + 2)).setWidth 8) else none

end Sys2Proof.Machine
end

