-- ==== Sys2Proof/Machine/Arithmetic.lean ====
section
/-! DEFINITION. Meaning of ADD A,direct. -/

namespace Sys2Proof.Machine

/-- `ADD A,direct` (42_arithmetic.md R123): the operand is read before the accumulator and the flags are
written, so `ADD A,0xD0` adds the old PSW (30_encoding.md R89). -/
def execAddADir (d : Byte) (s : State) : Host.Outcome State Fault Refusal :=
  let b := readDirect s d
  let r := addWithCarry b.2.acc b.1 false
  .next (setArithFlags (b.2.setAcc r.sum) r.cy r.ac r.ov)

end Sys2Proof.Machine
end

