-- ==== Sys2Proof/Machine/BitOps.lean ====
section
/-! DEFINITION. Meanings of SETB bit and CLR bit. -/

namespace Sys2Proof.Machine

/-- `SETB bit` (44_bit_ops.md R140). -/
def execSetb (b : Byte) (s : State) : Host.Outcome State Fault Refusal :=
  .next (writeBit s b true)

/-- `CLR bit` (44_bit_ops.md R141). -/
def execClr (b : Byte) (s : State) : Host.Outcome State Fault Refusal :=
  .next (writeBit s b false)

end Sys2Proof.Machine
end

