-- ==== Sys2Proof/Machine/ImmediateLoads.lean ====
section
/-! DEFINITION. Meanings of the three immediate loads. -/

namespace Sys2Proof.Machine

/-- `MOV A,#imm` (41_immediate_loads.md R110). -/
def execMovAImm (imm : Byte) (s : State) : Host.Outcome State Fault Refusal :=
  .next (s.setAcc imm)

/-- `MOV direct,#imm` (41_immediate_loads.md R111). -/
def execMovDirImm (d imm : Byte) (s : State) : Host.Outcome State Fault Refusal :=
  .next (writeDirect s d imm)

/-- `MOV Rn,#imm` (41_immediate_loads.md R112). -/
def execMovRnImm (n : Byte) (imm : Byte) (s : State) : Host.Outcome State Fault Refusal :=
  .next (regWrite s n imm)

end Sys2Proof.Machine
end

