-- ==== Sys2Proof/Machine/Jumps.lean ====
section
/-! DEFINITION. Meanings of LJMP, SJMP and DJNZ. In each, pc holds the address after the instruction's last byte. -/

namespace Sys2Proof.Machine

/-- `LJMP addr16` (40_jumps.md R100): the target is stored unmasked. -/
def execLjmp (addr : Word) (s : State) : Host.Outcome State Fault Refusal :=
  .next (s.setPc addr)

/-- `SJMP rel` (40_jumps.md R101). -/
def execSjmp (rel : Byte) (s : State) : Host.Outcome State Fault Refusal :=
  .next (s.setPc (relTarget s.pc rel))

/-- `DJNZ Rn,rel` (45_djnz.md R151): the register is written back in both cases, then the branch is taken
when the result is not zero. -/
def execDjnz (n : Byte) (rel : Byte) (s : State) : Host.Outcome State Fault Refusal :=
  let v := dec8 (regRead s n)
  let t := regWrite s n v
  .next (if v ≠ 0 then t.setPc (relTarget t.pc rel) else t)

end Sys2Proof.Machine
end

