-- ==== Sys2Proof/Machine/Moves.lean ====
section
/-! DEFINITION. Meanings of the six moves between the accumulator and direct, register and register-indirect operands. -/

namespace Sys2Proof.Machine

/-- `MOV A,direct` (43_moves.md R130). -/
def execMovADir (d : Byte) (s : State) : Host.Outcome State Fault Refusal :=
  let b := readDirect s d
  .next (b.2.setAcc b.1)

/-- `MOV direct,A` (43_moves.md R131). -/
def execMovDirA (d : Byte) (s : State) : Host.Outcome State Fault Refusal :=
  .next (writeDirect s d s.acc)

/-- `MOV A,Rn` (43_moves.md R132). -/
def execMovARn (n : Byte) (s : State) : Host.Outcome State Fault Refusal :=
  .next (s.setAcc (regRead s n))

/-- `MOV Rn,A` (43_moves.md R133). -/
def execMovRnA (n : Byte) (s : State) : Host.Outcome State Fault Refusal :=
  .next (regWrite s n s.acc)

/-- `MOV A,@Ri` (43_moves.md R134): internal RAM only. -/
def execMovAInd (i : Byte) (s : State) : Host.Outcome State Fault Refusal :=
  let b := readIndirect s (regRead s i)
  .next (b.2.setAcc b.1)

/-- `MOV @Ri,A` (43_moves.md R135): internal RAM only. -/
def execMovIndA (i : Byte) (s : State) : Host.Outcome State Fault Refusal :=
  .next (writeIndirect s (regRead s i) s.acc)

end Sys2Proof.Machine
end

