-- ==== Sys2Proof/Syntax.lean ====
section
/-! DEFINITION. The instructions, one constructor per row of spec/opcode_table.json. -/

namespace Sys2Proof

/-- The 15 instructions of 30_encoding.md R84, in its order. Operands are those of R82.
A register number is a byte of which register access uses the low three bits (20_memory.md R50,
`regIndex & 0x7`); `Instr.wellFormed` says which values an encoding holds: log entry 10. -/
inductive Instr where
  /-- `LJMP addr16` -/
  | ljmp (addr : Word)
  /-- `SJMP rel` -/
  | sjmp (rel : Byte)
  /-- `MOV A,#imm` -/
  | movAImm (imm : Byte)
  /-- `MOV direct,#imm` -/
  | movDirImm (d imm : Byte)
  /-- `MOV Rn,#imm` -/
  | movRnImm (n : Byte) (imm : Byte)
  /-- `ADD A,direct` -/
  | addADir (d : Byte)
  /-- `MOV A,direct` -/
  | movADir (d : Byte)
  /-- `MOV direct,A` -/
  | movDirA (d : Byte)
  /-- `MOV A,Rn` -/
  | movARn (n : Byte)
  /-- `MOV Rn,A` -/
  | movRnA (n : Byte)
  /-- `MOV A,@Ri` -/
  | movAInd (i : Byte)
  /-- `MOV @Ri,A` -/
  | movIndA (i : Byte)
  /-- `SETB bit` -/
  | setb (b : Byte)
  /-- `CLR bit` -/
  | clr (b : Byte)
  /-- `DJNZ Rn,rel` -/
  | djnz (n : Byte) (rel : Byte)
deriving DecidableEq, Repr

/-- The assembler form of an instruction (30_encoding.md R92). -/
def Instr.mnemonic : Instr → String
  | .ljmp _ => "LJMP addr16"
  | .sjmp _ => "SJMP rel"
  | .movAImm _ => "MOV A,#imm"
  | .movDirImm _ _ => "MOV direct,#imm"
  | .movRnImm _ _ => "MOV Rn,#imm"
  | .addADir _ => "ADD A,direct"
  | .movADir _ => "MOV A,direct"
  | .movDirA _ => "MOV direct,A"
  | .movARn _ => "MOV A,Rn"
  | .movRnA _ => "MOV Rn,A"
  | .movAInd _ => "MOV A,@Ri"
  | .movIndA _ => "MOV @Ri,A"
  | .setb _ => "SETB bit"
  | .clr _ => "CLR bit"
  | .djnz _ _ => "DJNZ Rn,rel"

end Sys2Proof
end

