-- ==== Sys2Proof/Machine/Dispatch.lean ====
section
/-! DEFINITION. Execute(op) of 30_encoding.md R88: one arm per instruction. -/

namespace Sys2Proof.Machine

/-- The effect of an instruction, after its bytes were fetched and before the parity recomputation. -/
def exec (i : Instr) (s : State) : Host.Outcome State Fault Refusal :=
  match i with
  | .ljmp addr => Sys2Proof.Machine.execLjmp addr s
  | .sjmp rel => Sys2Proof.Machine.execSjmp rel s
  | .movAImm imm => Sys2Proof.Machine.execMovAImm imm s
  | .movDirImm d imm => Sys2Proof.Machine.execMovDirImm d imm s
  | .movRnImm n imm => Sys2Proof.Machine.execMovRnImm n imm s
  | .addADir d => Sys2Proof.Machine.execAddADir d s
  | .movADir d => Sys2Proof.Machine.execMovADir d s
  | .movDirA d => Sys2Proof.Machine.execMovDirA d s
  | .movARn n => Sys2Proof.Machine.execMovARn n s
  | .movRnA n => Sys2Proof.Machine.execMovRnA n s
  | .movAInd p => Sys2Proof.Machine.execMovAInd p s
  | .movIndA p => Sys2Proof.Machine.execMovIndA p s
  | .setb b => Sys2Proof.Machine.execSetb b s
  | .clr b => Sys2Proof.Machine.execClr b s
  | .djnz n rel => Sys2Proof.Machine.execDjnz n rel s

end Sys2Proof.Machine
end

