-- ==== Sys2Proof/WellFormed.lean ====
section
/-! DEFINITION. Which instruction terms an encoding can hold. -/

namespace Sys2Proof

/-- A register number is the 3-bit field `n` of the opcode byte (30_encoding.md R82). -/
def isRegister (n : Byte) : Bool := decide (n.toNat < 8)

/-- A pointer register is the 1-bit field `i` of the opcode byte: R0 or R1 (30_encoding.md R82). -/
def isPointer (i : Byte) : Bool := decide (i.toNat < 2)

/-- Well-formed instructions: register numbers fit their fields. Every value of every operand byte is
legal (30_encoding.md R86), so nothing else is checked. -/
def Instr.wellFormed : Instr → Bool
  | .ljmp _ => true
  | .sjmp _ => true
  | .movAImm _ => true
  | .movDirImm _ _ => true
  | .movRnImm n _ => isRegister n
  | .addADir _ => true
  | .movADir _ => true
  | .movDirA _ => true
  | .movARn n => isRegister n
  | .movRnA n => isRegister n
  | .movAInd i => isPointer i
  | .movIndA i => isPointer i
  | .setb _ => true
  | .clr _ => true
  | .djnz n _ => isRegister n

end Sys2Proof
end

