-- ==== Sys2Proof/Decode.lean ====
section
/-! DEFINITION. The 8051_decoder: formats, the opcode table, decoding of bytes, and the encoder. -/

namespace Sys2Proof

/-- The ten formats of 30_encoding.md R81. -/
inductive Format where
  | opR | opI | opImm | opRImm | opDir | opBit | opRel | opRRel | opDirImm | opAddr16
deriving DecidableEq, Repr

/-- Number of operand bytes after the opcode byte (30_encoding.md R81, the length less one). -/
def formatOperands : Format → Nat
  | .opR => 0
  | .opI => 0
  | .opImm => 1
  | .opRImm => 1
  | .opDir => 1
  | .opBit => 1
  | .opRel => 1
  | .opRRel => 1
  | .opDirImm => 2
  | .opAddr16 => 2

/-- A row of the opcode map of 30_encoding.md R84: the first bytes `b` with `b & mask = pattern`, and the
instruction built from byte 0, byte 1 and byte 2 (bytes the format lacks are not looked at). -/
structure OpcodeRow where
  format : Format
  pattern : Byte
  mask : Byte
  build : Byte → Byte → Byte → Instr

/-- Field `n`: bits 2:0 of the opcode byte (30_encoding.md R82). -/
def fieldN (op : Byte) : Byte := op &&& 0x7

/-- Field `i`: bit 0 of the opcode byte (30_encoding.md R82). -/
def fieldI (op : Byte) : Byte := op &&& 0x1

/-- The opcode map, rows 1 to 15 of 30_encoding.md R84, operand bytes as in R81 and R82. Byte values other
than 0x74, 0x25 and 0xD8, the field places and the operand order are the spec's own (D9, D10): log entry 11. -/
def opcodeMap : List OpcodeRow :=
  [ ⟨.opAddr16, 0x02, 0xFF, fun _ hi lo => .ljmp (hi ++ lo)⟩,
    ⟨.opRel, 0x80, 0xFF, fun _ rel _ => .sjmp rel⟩,
    ⟨.opImm, 0x74, 0xFF, fun _ imm _ => .movAImm imm⟩,
    ⟨.opDirImm, 0x75, 0xFF, fun _ d imm => .movDirImm d imm⟩,
    ⟨.opRImm, 0x78, 0xF8, fun op imm _ => .movRnImm (fieldN op) imm⟩,
    ⟨.opDir, 0x25, 0xFF, fun _ d _ => .addADir d⟩,
    ⟨.opDir, 0xE5, 0xFF, fun _ d _ => .movADir d⟩,
    ⟨.opDir, 0xF5, 0xFF, fun _ d _ => .movDirA d⟩,
    ⟨.opR, 0xE8, 0xF8, fun op _ _ => .movARn (fieldN op)⟩,
    ⟨.opR, 0xF8, 0xF8, fun op _ _ => .movRnA (fieldN op)⟩,
    ⟨.opI, 0xE6, 0xFE, fun op _ _ => .movAInd (fieldI op)⟩,
    ⟨.opI, 0xF6, 0xFE, fun op _ _ => .movIndA (fieldI op)⟩,
    ⟨.opBit, 0xD2, 0xFF, fun _ b _ => .setb b⟩,
    ⟨.opBit, 0xC2, 0xFF, fun _ b _ => .clr b⟩,
    ⟨.opRRel, 0xD8, 0xF8, fun op rel _ => .djnz (fieldN op) rel⟩ ]

/-- A first byte selects a row when it agrees with the row's pattern under its mask (30_encoding.md R84). -/
def rowMatches (op : Byte) (r : OpcodeRow) : Bool := op &&& r.mask == r.pattern

/-- The row a first byte selects; none for the 211 bytes of 30_encoding.md R86. -/
def lookupOpcode (op : Byte) : Option OpcodeRow := opcodeMap.find? (rowMatches op)

/-- Why bytes decode to no instruction. -/
inductive DecodeError where
  /-- the first byte is none of the 45 first bytes (30_encoding.md R86) -/
  | unimplementedOpcode (op : Byte)
  /-- the list ends before the instruction does; no fetch of the machine meets this -/
  | truncated
deriving DecidableEq, Repr

/-- The instruction a row makes of an opcode byte and its operand bytes in address order. -/
def buildFrom (r : OpcodeRow) (op : Byte) (operands : List Byte) : Instr :=
  r.build op (operands.getD 0 0) (operands.getD 1 0)

/-- Decoding: the instruction at the front of a list of bytes and the bytes after it. The first byte alone
decides the instruction and its length (30_encoding.md R80, R87). -/
def decode : List Byte → Except DecodeError (Instr × List Byte)
  | [] => .error .truncated
  | op :: rest =>
    match lookupOpcode op with
    | none => .error (.unimplementedOpcode op)
    | some r =>
      if rest.length < formatOperands r.format then .error .truncated
      else .ok (buildFrom r op rest, rest.drop (formatOperands r.format))

/-- The bytes of an instruction, opcode byte first: the encodings of the instruction rules R100, R101, R110
to R112, R123, R130 to R135, R140, R141 and R151. -/
def encode : Instr → List Byte
  | .ljmp addr => [0x02, addr.extractLsb' 8 8, addr.extractLsb' 0 8]
  | .sjmp rel => [0x80, rel]
  | .movAImm imm => [0x74, imm]
  | .movDirImm d imm => [0x75, d, imm]
  | .movRnImm n imm => [0x78 + n, imm]
  | .addADir d => [0x25, d]
  | .movADir d => [0xE5, d]
  | .movDirA d => [0xF5, d]
  | .movARn n => [0xE8 + n]
  | .movRnA n => [0xF8 + n]
  | .movAInd i => [0xE6 + i]
  | .movIndA i => [0xF6 + i]
  | .setb b => [0xD2, b]
  | .clr b => [0xC2, b]
  | .djnz n rel => [0xD8 + n, rel]

/-- Length in bytes, the column `length` of 30_encoding.md R84. -/
def Instr.length : Instr → Nat
  | .ljmp _ => 3
  | .sjmp _ => 2
  | .movAImm _ => 2
  | .movDirImm _ _ => 3
  | .movRnImm _ _ => 2
  | .addADir _ => 2
  | .movADir _ => 2
  | .movDirA _ => 2
  | .movARn _ => 1
  | .movRnA _ => 1
  | .movAInd _ => 1
  | .movIndA _ => 1
  | .setb _ => 2
  | .clr _ => 2
  | .djnz _ _ => 2

/-- Byte `k` of a word numbered as spec/opcode_table.json numbers it: bit 0 is the least significant bit of
the first byte, and every bit at or above `nbits` is 0. -/
def tableByte (nbits w k : Nat) : Byte := BitVec.ofNat 8 ((w % 2 ^ nbits) >>> (8 * k))

/-- The three bytes, in address order, of an instruction given as the opcode table numbers its bits. -/
def tableBytes (nbits w : Nat) : List Byte := [tableByte nbits w 0, tableByte nbits w 1, tableByte nbits w 2]

/-- The instruction the decoder reads from a word numbered as the opcode table numbers it. -/
def decodeTableWord (nbits w : Nat) : Option Instr :=
  match decode (tableBytes nbits w) with
  | .ok (i, _) => some i
  | .error _ => none

end Sys2Proof
end

