-- ==== Sys2Proof/Machine/Timing.lean ====
section
/-! DEFINITION. Machine cycles of each instruction, and the clock cycles a step returns. -/

namespace Sys2Proof.Machine

/-- Column `mc` of 70_reset_and_hazards.md R204: it depends on the instruction alone. The figures of
`MOV direct,#imm`, `MOV Rn,#imm`, `MOV A,direct`, `MOV direct,A`, `SETB bit` and `CLR bit` are the spec's own
decision D13, log entry 12. -/
def machineCycles : Instr → Nat
  | .ljmp _ => 2
  | .sjmp _ => 2
  | .movAImm _ => 1
  | .movDirImm _ _ => 2
  | .movRnImm _ _ => 1
  | .addADir _ => 1
  | .movADir _ => 1
  | .movDirA _ => 1
  | .movARn _ => 1
  | .movRnA _ => 1
  | .movAInd _ => 1
  | .movIndA _ => 1
  | .setb _ => 1
  | .clr _ => 1
  | .djnz _ _ => 2

/-- Clock cycles of an instruction: 12 to a machine cycle (70_reset_and_hazards.md R204). -/
def clockCycles (i : Instr) : Nat := 12 * machineCycles i

end Sys2Proof.Machine
end

