-- ==== Sys2Proof/Machine/Fetch.lean ====
section
/-! DEFINITION. Fetching an instruction's bytes, and what a step does after the instruction ran. -/

namespace Sys2Proof.Machine

/-- The address a fetch presents to program memory: pc reduced modulo 2^PROG_W when PROG_W > 0
(20_memory.md R57). -/
def fetchAddr (v : Variant) (pc : Word) : Word :=
  if v.progW.val = 0 then pc else pc &&& BitVec.ofNat 16 (2 ^ v.progW.val - 1)

/-- The address of the next program byte a fetch reads, after masking. -/
def State.nextAddr (s : State) : Word := fetchAddr s.variant s.pc

/-- `FetchByte()` (20_memory.md R57): mask pc, read, increment modulo 2^16. `ProgRead` is the read of
`prog` (20_memory.md R58). -/
def fetchByte (s : State) : Byte × State :=
  (s.prog.read s.nextAddr.toNat, s.setPc (s.nextAddr + 1))

/-- `k` fetches in a row: the bytes in address order and the state after them. -/
def fetchBytes : Nat → State → List Byte × State
  | 0, s => ([], s)
  | k + 1, s =>
    let r := fetchBytes k (fetchByte s).2
    ((fetchByte s).1 :: r.1, r.2)

/-- What the front of a step finds. -/
inductive Fetched where
  /-- an instruction, and the state after its last byte was fetched -/
  | instr (i : Instr) (s : State)
  /-- a first byte that is no instruction, the masked address it came from, and the state after its fetch -/
  | unimplemented (op : Byte) (addr : Word) (s : State)
deriving DecidableEq, Repr

/-- The opcode byte, then, if it selects a row of the opcode map, that row's operand bytes
(30_encoding.md R80, R82, R88). -/
def fetchInstr (s : State) : Fetched :=
  let f := fetchByte s
  match lookupOpcode f.1 with
  | none => .unimplemented f.1 s.nextAddr f.2
  | some r =>
    let operands := fetchBytes (formatOperands r.format) f.2
    .instr (buildFrom r f.1 operands.1) operands.2

/-- The end of a step that executed `i` (30_encoding.md R88): parity is recomputed and the clock cycles
are returned. -/
def completeStep (i : Instr) (s : State) : State :=
  { recomputeParity s with result := some (.ok (clockCycles i)) }

/-- `completeStep` on the outcome of executing an instruction; a stop stays what it is. -/
def finish (i : Instr) : Host.Outcome State Fault Refusal → Host.Outcome State Fault Refusal
  | .next t => .next (completeStep i t)
  | .fault f => .fault f
  | .refused r => .refused r

/-- The state with three program bytes placed where the next three fetches read. Later bytes are placed
first, so where a narrow program bus makes addresses coincide the earlier byte stands: log entry 19. -/
def placeInstr (s : State) (b0 b1 b2 : Byte) : State :=
  let a0 := s.nextAddr
  let a1 := fetchAddr s.variant (a0 + 1)
  let a2 := fetchAddr s.variant (a1 + 1)
  { s with prog := ((s.prog.write a2.toNat b2).write a1.toNat b1).write a0.toNat b0 }

end Sys2Proof.Machine
end

