-- ==== Sys2Proof/Machine/Step.lean ====
section
/-! DEFINITION. One step of the engine. -/

namespace Sys2Proof.Machine

/-- `Step()` (30_encoding.md R88). In Halted it answers the recorded fault (60_exceptions.md R163). A first
byte that is no instruction is TAKEN as the spec describes it (60_exceptions.md R161): the answer is the next
state, halted, with the fault recorded and returned in `result`: log entry 8. -/
def step (s : State) : Host.Outcome State Fault Refusal :=
  match s.run with
  | .halted op addr => .fault (.unimplementedOpcode op addr)
  | .fetching =>
    match fetchInstr s with
    | .unimplemented op addr t => .next (haltUnimplemented t op addr)
    | .instr i t => finish i (exec i t)

/-- The state with an instruction, numbered as spec/opcode_table.json numbers its bits, placed in program
memory where the next step fetches (30_encoding.md R80, 20_memory.md R57): log entries 4 and 19. -/
def State.withFetchWord (s : State) (nbits w : Nat) : State :=
  placeInstr s (tableByte nbits w 0) (tableByte nbits w 1) (tableByte nbits w 2)

end Sys2Proof.Machine
end

