-- ==== Sys2Proof/Machine/HostInterface.lean ====
section
/-! DEFINITION. What a host does to the block between steps: the exchange of the boundary, reset, and the debug snapshot. -/

namespace Sys2Proof.Machine

/-- The host exchanges the boundary implementation, as it may only before a reset (60_exceptions.md R177,
70_reset_and_hazards.md R191): new program memory, a new port boundary and its queued pins. The block's own
state is untouched: log entry 21. -/
def exchangeBoundary (prog : Memory) (ports : PortBoundary) (pins : List Byte) (s : State) : State :=
  { s with prog := prog, ports := ports, pins := pins }

/-- The SFR window after reset: the named registers at their reset values over bytes the spec leaves
unspecified (10_state.md R26). -/
def resetWindow (unnamed : Memory) : Memory :=
  (((((((unnamed.clip 0x100).write accOffset.toNat 0x00).write pswOffset.toNat 0x00).write spOffset.toNat 0x07).write
    (portOffset 0).toNat 0xFF).write (portOffset 1).toNat 0xFF).write (portOffset 2).toNat 0xFF).write
    (portOffset 3).toNat 0xFF

/-- Reset by the host with a choice of variant (70_reset_and_hazards.md R190, R191): legal in either run
state, the recorded fault is discarded, no event is emitted and no pin sampled. The bytes the spec leaves
unspecified come from `ram` and `unnamed`, any contents; the environment's side stays: log entry 16. -/
def hostReset (v : Variant) (ram unnamed : Memory) (s : State) : State :=
  { s with
    variant := v
    pc := 0x0000
    iram := ram.clip v.ramSize
    sfr := resetWindow unnamed
    rmw := false
    run := .fetching
    result := none }

/-- The fields of the debug snapshot (60_exceptions.md R174). -/
structure Snapshot where
  pc : Word
  psw : Byte
  accumulator : Byte
  stackPointer : Byte
  /-- registers 0 to 7 of the current bank -/
  registers : List Byte
deriving DecidableEq, Repr

/-- `debugSnapshot()` (60_exceptions.md R174): it is a function of the state, so taking it changes nothing,
draws no pin sample and emits no event. -/
def debugSnapshot (s : State) : Snapshot where
  pc := s.pc
  psw := s.psw
  accumulator := s.acc
  stackPointer := s.sp
  registers := [regRead s 0, regRead s 1, regRead s 2, regRead s 3, regRead s 4, regRead s 5, regRead s 6, regRead s 7]

end Sys2Proof.Machine
end

