-- ==== Sys2Proof/Safety.lean ====
section
/-! DEFINITION. The terms claims are stated in: the invariant, completed steps, and what an instruction leaves alone. -/

namespace Sys2Proof.Machine

/-- The invariant of the block between steps. The arrays are in canonical form and inside their sizes
(10_state.md R12, R13), the read-modify-write flag is clear (R22), and PSW bit 0 is the parity of the
accumulator (R19). -/
structure Invariant (s : State) : Prop where
  iram_wf : Memory.wf s.iram
  iram_within : Memory.within s.iram s.variant.ramSize
  sfr_wf : Memory.wf s.sfr
  sfr_within : Memory.within s.sfr 0x100
  prog_wf : Memory.wf s.prog
  prog_within : Memory.within s.prog 0x10000
  rmw_clear : s.rmw = false
  parity_current : s.psw.getLsbD 0 = parity s.acc

/-- A step that completes an instruction: it answers a next state that is still fetching. A step that halts
the engine answers a next state too, but not a fetching one (60_exceptions.md R161): log entry 8. -/
def CompletesStep (s : State) : Prop := ∃ t, step s = .next t ∧ t.run = .fetching

/-- The fixed and the control part of the state is unchanged. -/
structure SameControl (s t : State) : Prop where
  variant : t.variant = s.variant
  run : t.run = s.run
  prog : t.prog = s.prog
  ports : t.ports = s.ports
  result : t.result = s.result

/-- No pin was sampled and no port was driven. -/
structure SameBoundary (s t : State) : Prop where
  pins : t.pins = s.pins
  pinDraws : t.pinDraws = s.pinDraws
  events : t.events = s.events

/-- Exactly one event happened, the drive of port `p` with `v`. -/
structure DrivesOnce (s t : State) (p : Fin 4) (v : Byte) : Prop where
  pins : t.pins = s.pins
  pinDraws : t.pinDraws = s.pinDraws
  events : t.events = s.events ++ [.drive p v]

/-- Exactly one event happened, a sample of the pins of port `p`. -/
structure SamplesOnce (s t : State) (p : Fin 4) : Prop where
  pins : t.pins = s.pins.tail
  pinDraws : t.pinDraws = s.pinDraws + 1
  events : t.events = s.events ++ [.pin p (nextPin s p)]

/-- An environment that answers nothing (60_exceptions.md R165): no program boundary, no port boundary. -/
structure Unbound (s : State) : Prop where
  prog : s.prog = []
  ports : s.ports = .unbound

/-- The whole unified data space reads as before: internal RAM, every register, every SFR. -/
def StoresNothing (s t : State) : Prop := ∀ u : Word, t.stored u = s.stored u

/-- The whole unified data space reads as before but for the bytes at the listed addresses. -/
def StoresOnlyAt (s t : State) (us : List Word) : Prop := ∀ u : Word, u ∉ us → t.stored u = s.stored u

/-- Unified address of the accumulator (10_state.md R13, R14). -/
def accUnified : Word := 0x1E0

/-- Unified address of the program status word (10_state.md R13, R15). -/
def pswUnified : Word := 0x1D0

/-- The direct address of a port latch (10_state.md R17). -/
def isPortByte (d : Byte) : Bool := [0x80, 0x90, 0xA0, 0xB0].contains d

/-- A direct address with a byte of storage behind it (20_memory.md R49). -/
def DirectExists (v : Variant) (d : Byte) : Prop := 0x80 ≤ d ∨ d.toNat < v.ramSize

/-- What a write of `v` to direct address `d` does at the boundary (20_memory.md R44). -/
def BoundaryOfWrite (s t : State) (d v : Byte) : Prop :=
  (∀ p : Fin 4, d = portOffset p → DrivesOnce s t p v) ∧ (isPortByte d = false → SameBoundary s t)

/-- What a read of direct address `d` does at the boundary (20_memory.md R43). -/
def BoundaryOfRead (s t : State) (d : Byte) : Prop :=
  (∀ p : Fin 4, d = portOffset p → s.rmw = false → SamplesOnce s t p) ∧
    ((isPortByte d = false ∨ s.rmw = true) → SameBoundary s t)

/-- The 45 first bytes of instructions, as 30_encoding.md R84 lists them row by row. -/
def firstBytes : List Byte :=
  [0x02, 0x80, 0x74, 0x75] ++
  [0x78, 0x79, 0x7A, 0x7B, 0x7C, 0x7D, 0x7E, 0x7F] ++
  [0x25, 0xE5, 0xF5] ++
  [0xE8, 0xE9, 0xEA, 0xEB, 0xEC, 0xED, 0xEE, 0xEF] ++
  [0xF8, 0xF9, 0xFA, 0xFB, 0xFC, 0xFD, 0xFE, 0xFF] ++
  [0xE6, 0xE7, 0xF6, 0xF7, 0xD2, 0xC2] ++
  [0xD8, 0xD9, 0xDA, 0xDB, 0xDC, 0xDD, 0xDE, 0xDF]

end Sys2Proof.Machine

namespace Sys2Proof

open Sys2Proof.Machine

/-- The instruction reads a port SFR through the pins: `ADD A,direct` or `MOV A,direct` of a port address
(20_memory.md R55). -/
def Instr.readsPins : Instr → Bool
  | .addADir d => isPortByte d
  | .movADir d => isPortByte d
  | .ljmp _ => false
  | .sjmp _ => false
  | .movAImm _ => false
  | .movDirImm _ _ => false
  | .movRnImm _ _ => false
  | .movDirA _ => false
  | .movARn _ => false
  | .movRnA _ => false
  | .movAInd _ => false
  | .movIndA _ => false
  | .setb _ => false
  | .clr _ => false
  | .djnz _ _ => false

/-- The instruction writes a port latch: `MOV direct,#imm` or `MOV direct,A` of a port address, `SETB` or
`CLR` of a bit of a port (20_memory.md R56). -/
def Instr.drivesPort : Instr → Bool
  | .movDirImm d _ => isPortByte d
  | .movDirA d => isPortByte d
  | .setb b => isPortByte (b &&& 0xF8)
  | .clr b => isPortByte (b &&& 0xF8)
  | .ljmp _ => false
  | .sjmp _ => false
  | .movAImm _ => false
  | .movRnImm _ _ => false
  | .addADir _ => false
  | .movADir _ => false
  | .movARn _ => false
  | .movRnA _ => false
  | .movAInd _ => false
  | .movIndA _ => false
  | .djnz _ _ => false

/-- PSW or one of its bits is the instruction's explicit destination (10_state.md R25). -/
def Instr.namesPsw : Instr → Bool
  | .movDirImm d _ => d == 0xD0
  | .movDirA d => d == 0xD0
  | .setb b => b &&& 0xF8 == 0xD0
  | .clr b => b &&& 0xF8 == 0xD0
  | .ljmp _ => false
  | .sjmp _ => false
  | .movAImm _ => false
  | .movRnImm _ _ => false
  | .addADir _ => false
  | .movADir _ => false
  | .movARn _ => false
  | .movRnA _ => false
  | .movAInd _ => false
  | .movIndA _ => false
  | .djnz _ _ => false

/-- The instruction is `ADD A,direct`. -/
def Instr.isAdd : Instr → Bool
  | .addADir _ => true
  | .ljmp _ => false
  | .sjmp _ => false
  | .movAImm _ => false
  | .movDirImm _ _ => false
  | .movRnImm _ _ => false
  | .movADir _ => false
  | .movDirA _ => false
  | .movARn _ => false
  | .movRnA _ => false
  | .movAInd _ => false
  | .movIndA _ => false
  | .setb _ => false
  | .clr _ => false
  | .djnz _ _ => false

/-- The instruction may write pc itself: the jumps. -/
def Instr.isJump : Instr → Bool
  | .ljmp _ => true
  | .sjmp _ => true
  | .djnz _ _ => true
  | .movAImm _ => false
  | .movDirImm _ _ => false
  | .movRnImm _ _ => false
  | .addADir _ => false
  | .movADir _ => false
  | .movDirA _ => false
  | .movARn _ => false
  | .movRnA _ => false
  | .movAInd _ => false
  | .movIndA _ => false
  | .setb _ => false
  | .clr _ => false

end Sys2Proof
end

