-- ==== Sys2Proof/Certificates/Slice0/Obligations.lean ====
section
/-! DEFINITION. The statements about the model, each naming the rules of spec/ it formalises. Every statement holds for every variant (PROG_W, DATA_W), since the variant is a field of the state. -/

open Sys2Proof Sys2Proof.Machine

/-! ### Encoding -/

/-- Decoding the bytes of any well-formed instruction, whatever bytes follow, gives the instruction back and
leaves those bytes (30_encoding.md sections 2 to 4). -/
def Obligations.DecodeOfEncodeGivesTheInstruction : Prop :=
  ∀ (i : Instr) (rest : List Byte), i.wellFormed = true → decode (encode i ++ rest) = .ok (i, rest)

/-- The other direction: bytes that decode are the encoding of a well-formed instruction followed by what
was left, so no bit of an instruction byte is dropped and no two instructions share bytes. -/
def Obligations.EncodeOfDecodeGivesTheBytes : Prop :=
  ∀ (bytes rest : List Byte) (i : Instr),
    decode bytes = .ok (i, rest) → i.wellFormed = true ∧ encode i ++ rest = bytes

/-- "The 15 rows cover 45 first-byte values and no value matches two rows." (30_encoding.md section 4; the
values are the spec's own, D9.) -/
def Obligations.OpcodeRowsCover45ValuesWithoutOverlap : Prop :=
  opcodeMap.length = 15 ∧ firstBytes.length = 45 ∧ firstBytes.Nodup ∧
    ∀ op : Byte, (opcodeMap.filter (rowMatches op)).length = if op ∈ firstBytes then 1 else 0

/-- The other 211 first bytes decode to nothing, whatever follows (30_encoding.md section 5; closure of the
table is the spec's decision D9). -/
def Obligations.OtherFirstBytesAreRejectedByName : Prop :=
  ∀ (op : Byte) (rest : List Byte), op ∉ firstBytes → decode (op :: rest) = .error (.unimplementedOpcode op)

/-- Words written out from the encodings of spec/opcode_table.json decode to their instructions (the first
bytes 0x02, 0x75, 0xEA, 0xF7, 0xC2 and 0xDE, the places of n and i and the operand order are the spec's
decisions D9 and D10, from general knowledge: log entry 11). -/
def Obligations.WordsOfTheOpcodeTableDecode : Prop :=
  decode [0b00000010, 0b00010010, 0b00110100] = .ok (.ljmp 0x1234, []) ∧
  decode [0b01110100, 0b00000101] = .ok (.movAImm 0x05, []) ∧
  decode [0b01110101, 0b11010000, 0b00001000] = .ok (.movDirImm 0xD0 0x08, []) ∧
  decode [0b00100101, 0b00100000] = .ok (.addADir 0x20, []) ∧
  decode [0b11101010] = .ok (.movARn 2, []) ∧
  decode [0b11110111] = .ok (.movIndA 1, []) ∧
  decode [0b11000010, 0b10010000] = .ok (.clr 0x90, []) ∧
  decode [0b11011110, 0b11111100] = .ok (.djnz 6 0xFC, [])

/-- The first byte alone decides the instruction's kind and its length, and the length is the number of
bytes consumed (30_encoding.md R80, R87). -/
def Obligations.FirstByteAloneDecidesKindAndLength : Prop :=
  ∀ (op : Byte) (xs ys rx ry : List Byte) (i j : Instr),
    decode (op :: xs) = .ok (i, rx) → decode (op :: ys) = .ok (j, ry) →
      i.mnemonic = j.mnemonic ∧ i.length = j.length ∧ xs.length + 1 = i.length + rx.length

/-! ### Fetching and the step -/

/-- `FetchByte()` masks pc before the read when PROG_W > 0, stores the masked value back, reads program
memory there, and increments without a mask, modulo 2^16 (20_memory.md section 8, 10_state.md section 1; the
16 bits and the write-back are the spec's decisions D1, D2). -/
def Obligations.FetchByteMasksReadsAndIncrements : Prop :=
  ∀ s : State,
    let a := if s.variant.progW.val = 0 then s.pc.toNat else s.pc.toNat % 2 ^ s.variant.progW.val
    (fetchByte s).1 = s.prog.read a ∧ (fetchByte s).2 = { s with pc := BitVec.ofNat 16 (a + 1) }

/-- A step runs the decoded instruction: when the engine fetches and the bytes at pc decode to `i`, the
step is `exec i` in the state after `i`'s bytes were fetched, then the parity recomputation, and it returns
12 clock cycles for each machine cycle of `i` (30_encoding.md section 6). -/
def Obligations.StepRunsTheDecodedInstruction : Prop :=
  ∀ (s t : State) (i : Instr) (rest : List Byte),
    s.run = .fetching → decode (fetchBytes 3 s).1 = .ok (i, rest) →
      exec i (fetchBytes i.length s).2 = .next t →
        step s = .next { recomputeParity t with result := some (.ok (12 * machineCycles i)) }

/-- A first byte that is no instruction halts the engine: pc is one past the byte, the fault is recorded and
returned, and nothing else changes (60_exceptions.md section 1). The state left is the spec's decision D14,
and that this step answers a next state is the model's choice, log entry 8. -/
def Obligations.ReservedFirstByteHaltsTheEngine : Prop :=
  ∀ s : State, s.run = .fetching → (fetchByte s).1 ∉ firstBytes →
    step s = .next { s with
      pc := s.nextAddr + 1
      run := .halted (fetchByte s).1 s.nextAddr
      result := some (.fault (.unimplementedOpcode (fetchByte s).1 s.nextAddr)) }

/-- In Halted a step answers the recorded fault (60_exceptions.md section 1, the spec's decision D21). -/
def Obligations.HaltedStepAnswersTheRecordedFault : Prop :=
  ∀ (s : State) (op : Byte) (addr : Word),
    s.run = .halted op addr → step s = .fault (.unimplementedOpcode op addr)

/-- A step of a fetching engine always answers a next state, and that state still fetches exactly when the
first byte is one of the 45. That an instruction that executes cannot fault is 60_exceptions.md R166; that the
step on any other first byte answers the halted next state and faults only from the next step on is the
model's choice, log entry 8. -/
def Obligations.FetchingStepCompletesExactlyOnInstructions : Prop :=
  ∀ s : State, s.run = .fetching →
    ∃ t, step s = .next t ∧ (t.run = .fetching ↔ (fetchByte s).1 ∈ firstBytes)

/-- No step refuses, and none raises AddressOutOfRange (60_exceptions.md R162). That only a halted engine's
step answers a fault is the model's choice, log entry 8: by R161 the step that meets the byte raises it. -/
def Obligations.NoStepRefusesOrLeavesTheArrays : Prop :=
  ∀ s : State, (∀ r, step s ≠ .refused r) ∧ (∀ a, step s ≠ .fault (.addressOutOfRange a)) ∧
    ((∃ f, step s = .fault f) → s.run ≠ .fetching)

/-- The clock cycles a completed step returns, by first byte: 24 for LJMP, SJMP, `MOV direct,#imm` and DJNZ,
12 for the others (70_reset_and_hazards.md section 4; six figures are the spec's decision D13). -/
def Obligations.CompletedStepReturnsClockCycles : Prop :=
  ∀ s t : State, step s = .next t → t.run = .fetching →
    t.result = some (.ok
      (if (fetchByte s).1 ∈ [0x02, 0x80, 0x75, 0xD8, 0xD9, 0xDA, 0xDB, 0xDC, 0xDD, 0xDE, 0xDF] then 24 else 12))

/-- pc after an instruction that is no jump: past its bytes, when it does not straddle the end of the
program space (10_state.md R11; `a` is the masked address of the first byte). -/
def Obligations.StraightLineStepAdvancesPcByLength : Prop :=
  ∀ (s : State) (i : Instr) (rest : List Byte),
    s.run = .fetching → decode (fetchBytes 3 s).1 = .ok (i, rest) → i.isJump = false →
      (s.variant.progW.val = 0 ∨ s.nextAddr.toNat + i.length ≤ 2 ^ s.variant.progW.val) →
        ∃ t, step s = .next t ∧ t.pc = s.nextAddr + BitVec.ofNat 16 i.length

/-- `withFetchWord` places a word where the next step fetches, when the program bus is wide enough for three
distinct addresses (the model's own operation, log entries 4 and 19). -/
def Obligations.PlacedWordIsFetchedNext : Prop :=
  ∀ (s : State) (nbits w : Nat),
    (s.variant.progW.val = 0 ∨ 2 ≤ s.variant.progW.val) →
      (fetchBytes 3 (s.withFetchWord nbits w)).1 = tableBytes nbits w ∧
        { s.withFetchWord nbits w with prog := s.prog } = s

/-! ### Reset, invariant, whole-machine rules -/

/-- Reset gives every named register its value, from any state, with any choice of variant and any contents
of the bytes the spec leaves unspecified, and touches no pin and no port; `State.reset` is one such state
(10_state.md section 8, 70_reset_and_hazards.md section 1; `rmw`, the silence on the ports and the return to
Fetching from Halted are the spec's decisions D8, D7, D21). The model's choices: the boundary is kept, log
entries 16 and 21; no result is left, log entry 7; `State.reset` is the reset with widths 12 and 7 and every
unspecified byte 0x00, log entries 1 to 3. -/
def Obligations.ResetGivesTheNamedValues : Prop :=
  (∀ (v : Variant) (ram unnamed : Memory) (s : State),
    let r := hostReset v ram unnamed s
    r.variant = v ∧ r.pc = 0x0000 ∧ r.acc = 0x00 ∧ r.psw = 0x00 ∧ r.sp = 0x07 ∧
      (∀ p : Fin 4, r.sfrAt (portOffset p) = 0xFF) ∧ r.rmw = false ∧ r.run = .fetching ∧
      r.result = none ∧ SameBoundary s r ∧ r.prog = s.prog ∧ r.ports = s.ports) ∧
  State.reset = hostReset ⟨12, 7⟩ [] [] State.reset

/-- The invariant holds after every reset, whatever the state before, if the arrays handed to it and the
program memory that stays are in canonical form and that memory is within its 16-bit addresses, and in
`State.reset` (10_state.md section 8). -/
def Obligations.ResetMeetsTheInvariant : Prop :=
  Invariant State.reset ∧
    ∀ (v : Variant) (ram unnamed : Memory) (s : State),
      Memory.wf ram → Memory.wf unnamed → Memory.wf s.prog → Memory.within s.prog 0x10000 →
        Invariant (hostReset v ram unnamed s)

/-- Every step keeps the invariant: canonical arrays inside their sizes, the read-modify-write flag clear,
and PSW bit 0 the parity of the accumulator. -/
def Obligations.EveryStepKeepsTheInvariant : Prop :=
  ∀ s t : State, Invariant s → step s = .next t → Invariant t

/-- No step changes program memory (20_memory.md R67), an SFR offset below 0x80 (10_state.md R13), the
boundary (60_exceptions.md R177) or the variant (fixed by reset, 70_reset_and_hazards.md R190; that variant
and boundary stand in the state is the model's choice, log entries 1 and 21). -/
def Obligations.NoStepWritesProgramVariantOrLowWindow : Prop :=
  ∀ s t : State, step s = .next t →
    t.variant = s.variant ∧ t.prog = s.prog ∧ t.ports = s.ports ∧ ∀ o : Byte, o < 0x80 → t.sfrAt o = s.sfrAt o

/-- The parity rule: the recomputation writes PSW bit 0 with the XOR of the accumulator's bits, 1 for an odd
number of ones, and nothing else; it ends every step that executes an instruction, in the state that
instruction left, so PSW bit 0 then agrees with the accumulator (10_state.md section 4). A step that halts
does not perform it: the spec's decision D14, and that such a step answers a next state is the model's choice,
log entry 8. -/
def Obligations.ParityFollowsTheAccumulator : Prop :=
  let odd : Byte → Bool := fun a => (List.range 8).countP (fun k => a.getLsbD k) % 2 == 1
  (∀ s : State,
    let t := recomputeParity s
    t.psw = (s.psw &&& 0xFE) ||| (if odd s.acc then 1 else 0) ∧
      StoresOnlyAt s t [pswUnified] ∧ (∀ o : Byte, o ≠ 0xD0 → t.sfrAt o = s.sfrAt o) ∧
      SameBoundary s t ∧ SameControl s t ∧ t.pc = s.pc ∧ t.rmw = s.rmw) ∧
  (∀ s t : State, step s = .next t → t.run = .fetching →
    t.psw.getLsbD 0 = odd t.acc ∧
      ∃ (i : Instr) (rest : List Byte) (u : State), decode (fetchBytes 3 s).1 = .ok (i, rest) ∧
        exec i (fetchBytes i.length s).2 = .next u ∧ t = { recomputeParity u with result := t.result }) ∧
  (∀ s t : State, step s = .next t → t.run ≠ .fetching → t.sfr = s.sfr)

/-- Only `ADD A,direct` changes CY, AC, OV as a side effect: every other instruction that does not name PSW
leaves PSW whole to the parity recomputation (10_state.md section 7, the spec's decision D12). -/
def Obligations.OnlyAddWritesFlagsAsASideEffect : Prop :=
  ∀ (i : Instr) (s : State), i.isAdd = false → i.namesPsw = false →
    ∃ t, exec i s = .next t ∧ t.psw = s.psw

/-- No instruction uses the stack pointer implicitly: only a direct write of 0x81 changes it
(10_state.md R16). -/
def Obligations.StackPointerChangesOnlyByDirectWrite : Prop :=
  ∀ (i : Instr) (s : State), (∀ imm, i ≠ .movDirImm 0x81 imm) → i ≠ .movDirA 0x81 →
    ∃ t, exec i s = .next t ∧ t.sp = s.sp

/-- The history of boundary events only grows, in program order, by at most one event a step
(20_memory.md section 11; that it stands in the state is the model's choice, log entry 6). -/
def Obligations.StepAppendsAtMostOneEvent : Prop :=
  ∀ s t : State, step s = .next t → ∃ new : List Event, t.events = s.events ++ new ∧ new.length ≤ 1

/-- Only the instructions the spec lists sample pins, and only those it lists drive ports (20_memory.md
section 8; when a drive happens is the spec's decision D7). -/
def Obligations.OnlyListedInstructionsTouchThePorts : Prop :=
  ∀ (i : Instr) (s : State), ∃ (t : State) (new : List Event), exec i s = .next t ∧ t.events = s.events ++ new ∧
    (i.readsPins = false → t.pins = s.pins ∧ t.pinDraws = s.pinDraws ∧ ∀ p v, Event.pin p v ∉ new) ∧
    (i.drivesPort = false → ∀ p v, Event.drive p v ∉ new) ∧
    (i.readsPins = false → i.drivesPort = false → t.events = s.events)

/-- Pin levels reach an execution only through port reads: an instruction that reads no port does the same
whatever pins are queued, and whether or not a port boundary is attached (20_memory.md section 8, the spec's
decision D17). -/
def Obligations.PinsAreUnseenWithoutAPortRead : Prop :=
  ∀ (i : Instr) (s t : State) (ports : PortBoundary) (pins : List Byte) (draws : Nat), i.readsPins = false →
    exec i s = .next t →
      exec i { s with ports := ports, pins := pins, pinDraws := draws } =
        .next { t with ports := ports, pins := pins, pinDraws := draws }

/-! ### Access paths -/

/-- `ReadByte` and `WriteByte`: internal RAM below 2^DATA_W, the SFR window from 0x100 to 0x1FF, and nowhere
else anything, where a read gives 0x00 and a write is ignored; the two ranges never overlap
(20_memory.md R41, R42). -/
def Obligations.UnifiedPathRoutesByAddress : Prop :=
  ∀ (s : State) (u : Word) (v : Byte),
    s.variant.ramSize ≤ 0x100 ∧
    (u.toNat < s.variant.ramSize →
      readByte s u = (s.iramAt u.toNat, s) ∧ writeByte s u v = s.setIram u.toNat v) ∧
    (0x100 ≤ u.toNat → u.toNat < 0x200 →
      readByte s u = sfrRead s (BitVec.ofNat 8 (u.toNat - 0x100)) ∧
        writeByte s u v = sfrWrite s (BitVec.ofNat 8 (u.toNat - 0x100)) v) ∧
    (s.variant.ramSize ≤ u.toNat → (u.toNat < 0x100 ∨ 0x200 ≤ u.toNat) →
      readByte s u = (0x00, s) ∧ writeByte s u v = s)

/-- Direct addresses below 0x80 reach internal RAM, where one at or beyond 2^DATA_W reads 0x00 and ignores
writes; those from 0x80 on reach the SFR window, whatever DATA_W (20_memory.md R45, R46). -/
def Obligations.DirectAddressesSplitAt80 : Prop :=
  ∀ (s : State) (d v : Byte),
    (d.toNat < 0x80 → d.toNat < s.variant.ramSize →
      readDirect s d = (s.iramAt d.toNat, s) ∧ writeDirect s d v = s.setIram d.toNat v) ∧
    (d.toNat < 0x80 → s.variant.ramSize ≤ d.toNat → readDirect s d = (0x00, s) ∧ writeDirect s d v = s) ∧
    (0x80 ≤ d.toNat → readDirect s d = sfrRead s d ∧ writeDirect s d v = sfrWrite s d v)

/-- Register-indirect addresses reach internal RAM only, never the SFR window: beyond 2^DATA_W a read gives
0x00 and a write is ignored, for any DATA_W (20_memory.md R47, R48). -/
def Obligations.IndirectAddressesReachRamOnly : Prop :=
  ∀ (s : State) (a v : Byte),
    (a.toNat < s.variant.ramSize →
      readIndirect s a = (s.iramAt a.toNat, s) ∧ writeIndirect s a v = s.setIram a.toNat v) ∧
    (s.variant.ramSize ≤ a.toNat → readIndirect s a = (0x00, s) ∧ writeIndirect s a v = s) ∧
    (writeIndirect s a v).sfr = s.sfr

/-- A read of a port SFR is its latch ANDed with one fresh pin sample, unless the read-modify-write flag is
set, when it is the latch and nothing is sampled; a read of any other offset is the stored byte. With a port
boundary attached a queued pin byte is the sample, with none it is 0x00 (20_memory.md sections 3 and 8; masking
of all four ports is the spec's decision D6, the queue log entry 5, the attachment log entry 21). -/
def Obligations.PortReadsAreLatchAndPins : Prop :=
  ∀ s : State,
    (∀ p : Fin 4, s.rmw = false →
      (sfrRead s (portOffset p)).1 = s.sfrAt (portOffset p) &&& nextPin s p ∧
        SamplesOnce s (sfrRead s (portOffset p)).2 p ∧ SameControl s (sfrRead s (portOffset p)).2 ∧
        StoresNothing s (sfrRead s (portOffset p)).2) ∧
    (∀ p : Fin 4, s.rmw = true → sfrRead s (portOffset p) = (s.sfrAt (portOffset p), s)) ∧
    (∀ o : Byte, isPortByte o = false → sfrRead s o = (s.sfrAt o, s)) ∧
    (∀ (p : Fin 4) (v : Byte) (vs : List Byte), s.ports = .attached → s.pins = v :: vs → nextPin s p = v) ∧
    (∀ p : Fin 4, s.ports = .unbound → nextPin s p = 0x00)

/-- A write of an SFR offset below 0x80 is ignored; above, the byte is stored and nothing else is; a write of
a port latch, and no other, drives its port once with the byte stored (20_memory.md section 3; the drive is
the spec's decision D7). -/
def Obligations.SfrWritesStoreAndDrivePorts : Prop :=
  ∀ (s : State) (o v : Byte),
    (o.toNat < 0x80 → sfrWrite s o v = s) ∧
    (0x80 ≤ o.toNat →
      (sfrWrite s o v).sfrAt o = v ∧ (∀ o' : Byte, o' ≠ o → (sfrWrite s o v).sfrAt o' = s.sfrAt o') ∧
        (sfrWrite s o v).iram = s.iram ∧ (sfrWrite s o v).pc = s.pc ∧ SameControl s (sfrWrite s o v) ∧
        BoundaryOfWrite s (sfrWrite s o v) o v)

/-- A direct read after a direct write gives the byte written, where there is storage and no port, and every
other byte of the data space reads as before (20_memory.md section 11). -/
def Obligations.DirectReadAfterWrite : Prop :=
  ∀ (s : State) (d v : Byte),
    (DirectExists s.variant d → isPortByte d = false → (readDirect (writeDirect s d v) d).1 = v) ∧
    (DirectExists s.variant d → (writeDirect s d v).stored (directAddr d) = v) ∧
    StoresOnlyAt s (writeDirect s d v) [directAddr d]

/-- Aliases are exact: register `n` of the current bank, the direct address and the register-indirect address
of its byte are the same storage, for reads and writes (10_state.md R20, 20_memory.md R50). -/
def Obligations.RegistersAreRamBytes : Prop :=
  ∀ (s : State) (n v : Byte),
    (regAddr s n).toNat < 0x20 ∧
    readDirect s (regAddr s n) = (regRead s n, s) ∧ readIndirect s (regAddr s n) = (regRead s n, s) ∧
    writeDirect s (regAddr s n) v = regWrite s n v ∧ writeIndirect s (regAddr s n) v = regWrite s n v

/-- The bank table and bank isolation: the address of register `n` is 8 times the bank of PSW[4:3] plus `n`;
what is written to a register stays there while another bank is used, for every DATA_W that leaves the register
in internal RAM; a direct write of PSW, or a bit write of 0xD3 or 0xD4, switches the bank for the next access
(10_state.md R21, for registers inside internal RAM). -/
def Obligations.BanksAreSelectedByPswAndIsolated : Prop :=
  (∀ (s : State) (n : Byte), (regAddr s n).toNat = 8 * (s.psw.toNat / 8 % 4) + n.toNat % 8) ∧
  (∀ (s : State) (p q n m v w : Byte), (regAddr (s.setPsw p) n).toNat < s.variant.ramSize →
    p &&& 0x18 ≠ q &&& 0x18 →
    regRead ((regWrite ((regWrite (s.setPsw p) n v).setPsw q) m w).setPsw p) n = v) ∧
  (∀ (s : State) (n v : Byte), (regAddr (writeDirect s 0xD0 v) n).toNat = 8 * (v.toNat / 8 % 4) + n.toNat % 8) ∧
  (∀ (s : State) (n : Byte) (x : Bool),
    (regAddr (writeBit s 0xD3 x) n).getLsbD 3 = x ∧
      (regAddr (writeBit s 0xD3 x) n).getLsbD 4 = s.psw.getLsbD 4 ∧
      (regAddr (writeBit s 0xD4 x) n).getLsbD 4 = x ∧
      (regAddr (writeBit s 0xD4 x) n).getLsbD 3 = s.psw.getLsbD 3)

/-- The bit-address map: below 0x80 byte 0x20 + b/8 of internal RAM, from 0x80 on the SFR byte at `b & 0xF8`;
the position is `b & 0x7` (20_memory.md R51, R52). -/
def Obligations.BitAddressesMapToBytes : Prop :=
  ∀ b : Byte,
    (b.toNat < 0x80 → (bitByteAddr b).toNat = 0x20 + b.toNat / 8 ∧ (bitByteAddr b).toNat < 0x30) ∧
    (0x80 ≤ b.toNat → bitByteAddr b = b &&& 0xF8 ∧ 0x80 ≤ (bitByteAddr b).toNat) ∧
    bitPos b = b.toNat % 8

/-- `byte.k` is another way to write a bit address: the assembler's formula undoes the resolver's
(30_encoding.md section 7, the syntax being the spec's decision D19). -/
def Obligations.ByteDotBitNamesTheBitAddress : Prop :=
  ∀ (b byte : Byte) (k : Fin 8),
    bitAddressOf byte k = some b ↔ bitByteAddr b = byte ∧ bitPos b = k.val

/-- `ReadBit` after `WriteBit` gives the bit written, where the byte exists and is no port
(20_memory.md R53, R54). -/
def Obligations.BitReadAfterBitWrite : Prop :=
  ∀ (s : State) (b : Byte) (x : Bool),
    DirectExists s.variant (bitByteAddr b) → isPortByte (bitByteAddr b) = false →
      (readBit (writeBit s b x) b).1 = x

/-! ### The ALU and the flag unit -/

/-- The adder in plain arithmetic: the sum modulo 256; carry when the sum exceeds 255; auxiliary carry when
the low nibbles' sum exceeds 15; overflow when the signed sum leaves -128 to 127 (42_arithmetic.md section 1;
the auxiliary carry is the spec's reading C3, decision D22). -/
def Obligations.AdderMeansArithmetic : Prop :=
  ∀ (a b : Byte) (cin : Bool),
    let r := addWithCarry a b cin
    r.sum.toNat = (a.toNat + b.toNat + cin.toNat) % 256 ∧
    r.cy = decide (a.toNat + b.toNat + cin.toNat > 255) ∧
    r.ac = decide (a.toNat % 16 + b.toNat % 16 + cin.toNat > 15) ∧
    r.ov = decide (a.toInt + b.toInt + cin.toNat < -128 ∨ a.toInt + b.toInt + cin.toNat > 127)

/-- `SetArithFlags` writes PSW bits 7, 6 and 2 with the three flags, whether they changed or not, and leaves
the other five bits and every other byte (42_arithmetic.md R122). -/
def Obligations.ArithFlagsGoToTheirPswBits : Prop :=
  ∀ (s : State) (cy ac ov : Bool),
    let t := setArithFlags s cy ac ov
    t.psw.getLsbD 7 = cy ∧ t.psw.getLsbD 6 = ac ∧ t.psw.getLsbD 2 = ov ∧
      (∀ k ∈ [0, 1, 3, 4, 5], t.psw.getLsbD k = s.psw.getLsbD k) ∧
      StoresOnlyAt s t [pswUnified] ∧ SameControl s t ∧ SameBoundary s t ∧ t.pc = s.pc ∧ t.rmw = s.rmw

/-- `ADD A,direct` completes in every state, for every direct address: the accumulator takes the sum modulo
256, CY, AC and OV its carries, the other PSW bits and every other byte stay, and the boundary sees the
operand read alone (42_arithmetic.md section 3). The operand is what `readDirect` gives before any write,
so `ADD A,0xD0` adds the old PSW (the order is the spec's decision D18, AC its decision D22). -/
def Obligations.AddDirectAddsToTheAccumulator : Prop :=
  ∀ (s : State) (d : Byte), ∃ t, exec (.addADir d) s = .next t ∧
    let a := s.acc
    let b := (readDirect s d).1
    t.acc.toNat = (a.toNat + b.toNat) % 256 ∧
    t.psw.getLsbD 7 = decide (a.toNat + b.toNat > 255) ∧
    t.psw.getLsbD 6 = decide (a.toNat % 16 + b.toNat % 16 > 15) ∧
    t.psw.getLsbD 2 = decide (a.toInt + b.toInt < -128 ∨ a.toInt + b.toInt > 127) ∧
    (∀ k ∈ [0, 1, 3, 4, 5], t.psw.getLsbD k = s.psw.getLsbD k) ∧
    StoresOnlyAt s t [accUnified, pswUnified] ∧ BoundaryOfRead s t d ∧ SameControl s t ∧
    t.pc = s.pc ∧ t.rmw = s.rmw

/-- `ADD A,0xE0` doubles the accumulator: CY is its old bit 7, AC its bit 3, OV the difference of its bits 7
and 6 (42_arithmetic.md section 3, corner case). -/
def Obligations.AddAccumulatorToItselfDoublesIt : Prop :=
  ∀ s : State, ∃ t, exec (.addADir 0xE0) s = .next t ∧
    t.acc.toNat = 2 * s.acc.toNat % 256 ∧ t.psw.getLsbD 7 = s.acc.getLsbD 7 ∧
    t.psw.getLsbD 6 = s.acc.getLsbD 3 ∧ t.psw.getLsbD 2 = (s.acc.getLsbD 7 ^^ s.acc.getLsbD 6)

/-! ### Jumps -/

/-- `LJMP` and `SJMP` complete in every state and write pc alone: the 16-bit target unmasked, or pc plus the
signed offset modulo 2^16 (40_jumps.md sections on LJMP and SJMP). -/
def Obligations.JumpsWriteOnlyPc : Prop :=
  (∀ (s : State) (target : Word), exec (.ljmp target) s = .next { s with pc := target }) ∧
  ∀ (s : State) (rel : Byte),
    exec (.sjmp rel) s = .next { s with pc := BitVec.ofInt 16 (s.pc.toNat + rel.toInt) }

/-- `DJNZ` completes in every state: the register of the current bank becomes one less modulo 256 (nothing is
stored where DATA_W leaves it out of internal RAM), the branch is taken exactly when the result is not zero,
and no other byte, flag or event changes (45_djnz.md; that no flag changes is the spec's decision D12). -/
def Obligations.DjnzDecrementsAndBranches : Prop :=
  ∀ (s : State) (n rel : Byte), ∃ t, exec (.djnz n rel) s = .next t ∧
    let v : Byte := BitVec.ofNat 8 ((regRead s n).toNat + 255)
    ((regAddr s n).toNat < s.variant.ramSize → regRead t n = v) ∧
    (s.variant.ramSize ≤ (regAddr s n).toNat → StoresNothing s t) ∧
    t.pc = (if v = 0 then s.pc else BitVec.ofInt 16 (s.pc.toNat + rel.toInt)) ∧
    StoresOnlyAt s t [regUnified s n] ∧ SameBoundary s t ∧ SameControl s t ∧ t.rmw = s.rmw

/-- The offset an assembler writes reaches its target: a two-byte relative jump at `a` with that offset, SJMP,
or DJNZ when it is taken, sends pc to `t`; DJNZ not taken goes on at `a + 2` (30_encoding.md section 7,
40_jumps.md, 45_djnz.md; the syntax is the spec's decision D19, the distance modulo 2^16 log entry 20). -/
def Obligations.AssembledOffsetReachesItsTarget : Prop :=
  ∀ (s : State) (a t : Word) (rel : Byte), assembleRel a t = some rel → s.pc = a + 2 →
    exec (.sjmp rel) s = .next (s.setPc t) ∧
    ∀ n : Byte, exec (.djnz n rel) s =
      .next ((regWrite s n (regRead s n - 1)).setPc (if regRead s n = 1 then a + 2 else t))

/-! ### Loads and moves -/

/-- The whole step of `MOV A,#imm`, from its bytes 0x74, imm in program memory: the accumulator takes imm, P
its parity, every other PSW bit, CY, AC and OV among them, every other byte and everything else stay, pc is
past the two bytes, and 12 clock cycles are returned (41_immediate_loads.md R110). -/
def Obligations.ImmediateLoadOfTheAccumulatorStep : Prop :=
  ∀ (s : State) (imm : Byte), s.run = .fetching →
    let a1 := fetchAddr s.variant (s.nextAddr + 1)
    s.prog.read s.nextAddr.toNat = 0x74 → s.prog.read a1.toNat = imm →
      ∃ t, step s = .next t ∧ t.acc = imm ∧ t.psw.getLsbD 0 = parity imm ∧
        (∀ k, 0 < k → t.psw.getLsbD k = s.psw.getLsbD k) ∧ t.pc = a1 + 1 ∧
        StoresOnlyAt s t [accUnified, pswUnified] ∧ SameBoundary s t ∧
        t.variant = s.variant ∧ t.prog = s.prog ∧ t.ports = s.ports ∧ t.rmw = s.rmw ∧ t.run = .fetching ∧
        t.result = some (.ok 12)

/-- `MOV A,#imm`, `MOV A,Rn` and `MOV A,@Ri` complete in every state: the accumulator takes the constant, the
register of the current bank, or the internal RAM byte the pointer register addresses (0x00 beyond 2^DATA_W),
and nothing else changes; no pin is sampled (41_immediate_loads.md, 43_moves.md). -/
def Obligations.LoadsWriteOnlyTheAccumulator : Prop :=
  ∀ (s : State) (i : Instr) (v : Byte),
    (i = .movAImm v ∨ (∃ n, i = .movARn n ∧ v = regRead s n) ∨
      (∃ p, i = .movAInd p ∧
        v = if (regRead s p).toNat < s.variant.ramSize then s.iramAt (regRead s p).toNat else 0x00)) →
    ∃ t, exec i s = .next t ∧ t.acc = v ∧ StoresOnlyAt s t [accUnified] ∧ SameBoundary s t ∧
      SameControl s t ∧ t.pc = s.pc ∧ t.rmw = s.rmw

/-- `MOV A,direct` completes in every state, for every direct address: the accumulator takes the byte read, a
port through its pins, and nothing else changes but the boundary of that read (43_moves.md; port masking is
the spec's decision D6). -/
def Obligations.MovADirectLoadsTheAccumulator : Prop :=
  ∀ (s : State) (d : Byte), ∃ t, exec (.movADir d) s = .next t ∧
    (∀ p : Fin 4, d = portOffset p → s.rmw = false → t.acc = s.sfrAt d &&& nextPin s p) ∧
    ((isPortByte d = false ∨ s.rmw = true) → t.acc = s.stored (directAddr d)) ∧
    StoresOnlyAt s t [accUnified] ∧ BoundaryOfRead s t d ∧ SameControl s t ∧ t.pc = s.pc ∧ t.rmw = s.rmw

/-- `MOV direct,#imm` and `MOV direct,A` complete in every state, for every direct address: the byte at the
direct address takes the value, nothing is stored where DATA_W leaves it out of internal RAM, a port is
driven once, and nothing else changes (41_immediate_loads.md, 43_moves.md; the drive is the spec's decision
D7). -/
def Obligations.StoresToADirectAddress : Prop :=
  ∀ (s : State) (i : Instr) (d v : Byte), (i = .movDirImm d v ∨ (i = .movDirA d ∧ v = s.acc)) →
    ∃ t, exec i s = .next t ∧
      (DirectExists s.variant d → t.stored (directAddr d) = v) ∧
      (¬ DirectExists s.variant d → StoresNothing s t) ∧
      StoresOnlyAt s t [directAddr d] ∧ BoundaryOfWrite s t d v ∧ SameControl s t ∧ t.pc = s.pc ∧ t.rmw = s.rmw

/-- `MOV Rn,#imm` and `MOV Rn,A` complete in every state: the register of the bank PSW selects takes the
value, nothing is stored where DATA_W leaves it out of internal RAM, and nothing else changes
(41_immediate_loads.md, 43_moves.md). -/
def Obligations.StoresToARegister : Prop :=
  ∀ (s : State) (i : Instr) (n v : Byte), (i = .movRnImm n v ∨ (i = .movRnA n ∧ v = s.acc)) →
    ∃ t, exec i s = .next t ∧
      ((regAddr s n).toNat < s.variant.ramSize → regRead t n = v) ∧
      (s.variant.ramSize ≤ (regAddr s n).toNat → StoresNothing s t) ∧
      StoresOnlyAt s t [regUnified s n] ∧ SameBoundary s t ∧ SameControl s t ∧ t.pc = s.pc ∧ t.rmw = s.rmw

/-- `MOV @Ri,A` completes in every state: the internal RAM byte the pointer register addresses takes the
accumulator, a write beyond 2^DATA_W is ignored, no SFR and no port is ever reached, the pointer register
changes only when it addresses itself (43_moves.md). -/
def Obligations.StoreThroughAPointerReachesRamOnly : Prop :=
  ∀ (s : State) (p : Byte), ∃ t, exec (.movIndA p) s = .next t ∧
    ((regRead s p).toNat < s.variant.ramSize → t.iramAt (regRead s p).toNat = s.acc) ∧
    (s.variant.ramSize ≤ (regRead s p).toNat → t = s) ∧
    t.sfr = s.sfr ∧ StoresOnlyAt s t [indirectAddr (regRead s p)] ∧
    (regRead s p ≠ regAddr s p → regRead t p = regRead s p) ∧
    SameBoundary s t ∧ SameControl s t ∧ t.pc = s.pc ∧ t.rmw = s.rmw

/-! ### Bit instructions -/

/-- `SETB bit` and `CLR bit` complete in every state, for all 256 bit addresses: the addressed bit of the
stored byte (for a port its latch) is set or cleared, the byte's other bits and every other byte stay,
nothing is stored where DATA_W leaves the byte out of internal RAM; a port is driven once with the whole new
latch, changed or not, and no pin is sampled; the read-modify-write flag is left clear (44_bit_ops.md,
20_memory.md section 7; the drive is the spec's decision D7). -/
def Obligations.BitInstructionsWriteOneBit : Prop :=
  ∀ (s : State) (i : Instr) (b : Byte) (x : Bool), ((i = .setb b ∧ x = true) ∨ (i = .clr b ∧ x = false)) →
    let u := directAddr (bitByteAddr b)
    ∃ t, exec i s = .next t ∧
      (DirectExists s.variant (bitByteAddr b) →
        ∀ k < 8, (t.stored u).getLsbD k = if k = b.toNat % 8 then x else (s.stored u).getLsbD k) ∧
      (¬ DirectExists s.variant (bitByteAddr b) → StoresNothing s t) ∧
      StoresOnlyAt s t [u] ∧ BoundaryOfWrite s t (bitByteAddr b) (t.stored u) ∧ SameControl s t ∧
      t.pc = s.pc ∧ t.rmw = false

/-! ### The host -/

/-- An environment with no program boundary makes the first step after any reset halt on the byte 0x00 fetched
from address 0, whatever its ports (20_memory.md section 8, 60_exceptions.md section 1; the halted state is the
spec's decision D14, log entry 8). -/
def Obligations.UnboundEnvironmentHaltsTheFirstStep : Prop :=
  ∀ (v : Variant) (ram unnamed : Memory) (s : State), s.prog = [] →
    ∃ t, step (hostReset v ram unnamed s) = .next t ∧ t.run = .halted 0x00 0x0000 ∧ t.pc = 0x0001 ∧
      step t = .fault (.unimplementedOpcode 0x00 0x0000)

/-- The debug snapshot shows pc unmasked, PSW, the accumulator, the stack pointer and the eight registers of
the current bank, each the internal RAM byte at 8 times the bank plus its number, 0x00 where DATA_W leaves
that out (60_exceptions.md R174). -/
def Obligations.SnapshotShowsTheCurrentBank : Prop :=
  ∀ s : State,
    let d := debugSnapshot s
    d.pc = s.pc ∧ d.psw = s.sfrAt 0xD0 ∧ d.accumulator = s.sfrAt 0xE0 ∧ d.stackPointer = s.sfrAt 0x81 ∧
      d.registers.length = 8 ∧
      ∀ n < 8,
        let a := 8 * ((s.sfrAt 0xD0).toNat / 8 % 4) + n
        d.registers.getD n 0 = if a < s.variant.ramSize then s.iramAt a else 0x00

/-- An environment that answers nothing is no fault: program memory reads 0x00 at every address, a port read
outside a read-modify-write is 0x00 whatever the latch holds, so `MOV A,direct` of a port loads 0x00 and
`ADD A,direct` of a port adds nothing; every instruction still completes, and its drives go nowhere, since what
it does depends on no event that went before (60_exceptions.md section 1, 20_memory.md section 8; the history of
events is log entry 6, the attachment log entry 21). -/
def Obligations.UnboundEnvironmentReadsZeroAndIgnoresDrives : Prop :=
  ∀ s : State, Unbound s →
    (∀ a : Nat, s.prog.read a = 0x00) ∧
    (∀ p : Fin 4, s.rmw = false → (sfrRead s (portOffset p)).1 = 0x00 ∧
      (∃ t, exec (.movADir (portOffset p)) s = .next t ∧ t.acc = 0x00) ∧
      ∃ t, exec (.addADir (portOffset p)) s = .next t ∧ t.acc = s.acc) ∧
    ∀ (i : Instr) (earlier : List Event), ∃ (t : State) (new : List Event), exec i s = .next t ∧
      t.events = s.events ++ new ∧
      exec i { s with events := earlier } = .next { t with events := earlier ++ new }
end

