-- ==== Sys2Proof/Laws/Memory.lean ====
section
/-! SUPPORT. The laws of byte arrays: a read after a write, and that every operation keeps the canonical form and the size. -/

namespace Sys2Proof.Machine

/-! ### Read after write, on every list, canonical or not -/

@[simp] theorem Memory.read_nil (a : Nat) : Memory.read [] a = Memory.unlisted := rfl

theorem Memory.read_erase (m : Memory) (a b : Nat) :
    Memory.read (Memory.erase m a) b = if b = a then Memory.unlisted else Memory.read m b := by
  induction m with
  | nil => simp [Memory.erase]
  | cons c m ih =>
    obtain ⟨k, v⟩ := c
    by_cases hk : k = a
    · by_cases hb : b = a
      · subst hb; simpa [Memory.erase, hk] using ih
      · have hab : a ≠ b := fun h => hb h.symm
        simp [Memory.erase, Memory.read, hk, ih, hb, hab]
    · by_cases hb : k = b
      · subst hb; simp [Memory.erase, Memory.read, hk]
      · simp [Memory.erase, Memory.read, hk, ih, hb]

theorem Memory.read_insert (m : Memory) (a b : Nat) (v : Byte) (h : Memory.read m a = Memory.unlisted)
    (hm : ∀ c ∈ m, c.1 ≠ a) :
    Memory.read (Memory.insert m a v) b = if b = a then v else Memory.read m b := by
  induction m with
  | nil => simp [Memory.insert, Memory.read, eq_comm (a := b)]
  | cons c m ih =>
    obtain ⟨k, w⟩ := c
    have hk : k ≠ a := hm (k, w) (by simp)
    have ih' := ih (by simpa [Memory.read, hk] using h) (fun c hc => hm c (by simp [hc]))
    by_cases hlt : a < k
    · simp [Memory.insert, Memory.read, hlt, eq_comm (a := b)]
    · by_cases hb : k = b
      · subst hb; simp [Memory.insert, Memory.read, hlt, hk]
      · simp [Memory.insert, Memory.read, hlt, hb, ih']

theorem Memory.not_mem_erase (m : Memory) (a : Nat) : ∀ c ∈ Memory.erase m a, c.1 ≠ a := by
  induction m with
  | nil => simp [Memory.erase]
  | cons c m ih =>
    obtain ⟨k, v⟩ := c
    by_cases hk : k = a
    · simpa [Memory.erase, hk] using ih
    · intro c hc
      rcases List.mem_cons.1 (by simpa [Memory.erase, hk] using hc) with rfl | hc
      · exact hk
      · exact ih c hc

/-- The read-after-write law. -/
theorem Memory.read_write (m : Memory) (a b : Nat) (v : Byte) :
    Memory.read (Memory.write m a v) b = if b = a then v else Memory.read m b := by
  unfold Memory.write
  split
  · next h => rw [Memory.read_erase, h]
  · rw [Memory.read_insert _ _ _ _ (by rw [Memory.read_erase, if_pos rfl]) (Memory.not_mem_erase m a),
      Memory.read_erase]
    split <;> rfl

@[simp] theorem Memory.read_write_same (m : Memory) (a : Nat) (v : Byte) :
    Memory.read (Memory.write m a v) a = v := by simp [Memory.read_write]

theorem Memory.read_write_ne (m : Memory) {a b : Nat} (v : Byte) (h : b ≠ a) :
    Memory.read (Memory.write m a v) b = Memory.read m b := by simp [Memory.read_write, h]

theorem Memory.mem_clip {m : Memory} {n : Nat} {c : Host.Cell} :
    c ∈ Memory.clip m n ↔ c ∈ m ∧ c.1 < n := by simp [Memory.clip]

/-! ### The canonical form and the size are kept -/

theorem Memory.erase_eq_filter (m : Memory) (a : Nat) :
    Memory.erase m a = m.filter fun c => decide (c.1 ≠ a) := by
  induction m with
  | nil => rfl
  | cons c m ih =>
    obtain ⟨k, v⟩ := c
    by_cases hk : k = a <;> simp [Memory.erase, hk, ih]

theorem Memory.mem_insert {m : Memory} {a : Nat} {v : Byte} {c : Host.Cell}
    (h : c ∈ Memory.insert m a v) : c = (a, v) ∨ c ∈ m := by
  induction m with
  | nil => simpa [Memory.insert] using h
  | cons d m ih =>
    obtain ⟨k, w⟩ := d
    by_cases hlt : a < k
    · simpa [Memory.insert, hlt] using h
    · simp only [Memory.insert, hlt, if_false, List.mem_cons] at h
      rcases h with rfl | h
      · simp
      · rcases ih h with rfl | h <;> simp [*]

theorem Memory.insert_wf (m : Memory) (a : Nat) (v : Byte) (hm : Memory.wf m) (ha : ∀ c ∈ m, c.1 ≠ a)
    (hv : v ≠ Memory.unlisted) : Memory.wf (Memory.insert m a v) := by
  refine ⟨?_, fun c hc => ?_⟩
  · obtain ⟨hp, -⟩ := hm
    induction m with
    | nil => simp [Memory.insert]
    | cons d m ih =>
      obtain ⟨k, w⟩ := d
      obtain ⟨hd, hp'⟩ := List.pairwise_cons.1 hp
      have hk : k ≠ a := ha (k, w) (by simp)
      by_cases hlt : a < k
      · simp only [Memory.insert, hlt, if_true]
        refine List.pairwise_cons.2 ⟨fun c hc => ?_, hp⟩
        rcases List.mem_cons.1 hc with rfl | hc
        · exact hlt
        · exact lt_trans hlt (hd c hc)
      · simp only [Memory.insert, hlt, if_false]
        refine List.pairwise_cons.2 ⟨fun c hc => ?_, ih (fun c hc => ha c (by simp [hc])) hp'⟩
        rcases Memory.mem_insert hc with rfl | hc
        · simp only; omega
        · exact hd c hc
  · rcases Memory.mem_insert hc with rfl | hc
    · exact hv
    · exact hm.2 c hc

theorem Memory.filter_wf (m : Memory) (p : Host.Cell → Bool) (hm : Memory.wf m) : Memory.wf (m.filter p) :=
  ⟨hm.1.filter p, fun c hc => hm.2 c (List.mem_filter.1 hc).1⟩

theorem Memory.erase_wf (m : Memory) (a : Nat) (hm : Memory.wf m) : Memory.wf (Memory.erase m a) := by
  rw [Memory.erase_eq_filter]; exact Memory.filter_wf m _ hm

theorem Memory.clip_wf (m : Memory) (n : Nat) (hm : Memory.wf m) : Memory.wf (Memory.clip m n) :=
  Memory.filter_wf m _ hm

/-- Every write keeps the canonical form. -/
theorem Memory.write_wf (m : Memory) (a : Nat) (v : Byte) (hm : Memory.wf m) :
    Memory.wf (Memory.write m a v) := by
  unfold Memory.write
  split
  · exact Memory.erase_wf m a hm
  · next h => exact Memory.insert_wf _ a v (Memory.erase_wf m a hm) (Memory.not_mem_erase m a) h

/-- A write inside an array keeps it inside its size. -/
theorem Memory.write_within (m : Memory) (a : Nat) (v : Byte) (n : Nat) (hm : Memory.within m n) (ha : a < n) :
    Memory.within (Memory.write m a v) n := by
  have he : Memory.within (Memory.erase m a) n := fun c hc => by
    rw [Memory.erase_eq_filter] at hc; exact hm c (List.mem_filter.1 hc).1
  unfold Memory.write
  split
  · exact he
  · intro c hc
    rcases Memory.mem_insert hc with rfl | hc
    · exact ha
    · exact he c hc

theorem Memory.clip_within (m : Memory) (n : Nat) : Memory.within (Memory.clip m n) n :=
  fun _ hc => (Memory.mem_clip.1 hc).2

/-- The arrays of the reset state are in canonical form. -/
theorem State.reset_memory_wf :
    Memory.wf State.reset.iram ∧ Memory.wf State.reset.sfr ∧ Memory.wf State.reset.prog := by decide

end Sys2Proof.Machine
end

