-- ==== Sys2Proof/Laws/State.lean ====
section
/-! SUPPORT. One lemma per field per update of State, so that no later proof unfolds a record update. -/

namespace Sys2Proof.Machine

variable (s : State)

/-! ### State.setIram -/

@[simp] theorem State.setIram_variant (a : Nat) (v : Byte) : (s.setIram a v).variant = s.variant := rfl
@[simp] theorem State.setIram_pc (a : Nat) (v : Byte) : (s.setIram a v).pc = s.pc := rfl
@[simp] theorem State.setIram_iram (a : Nat) (v : Byte) : (s.setIram a v).iram = s.iram.write a v := rfl
@[simp] theorem State.setIram_sfr (a : Nat) (v : Byte) : (s.setIram a v).sfr = s.sfr := rfl
@[simp] theorem State.setIram_rmw (a : Nat) (v : Byte) : (s.setIram a v).rmw = s.rmw := rfl
@[simp] theorem State.setIram_run (a : Nat) (v : Byte) : (s.setIram a v).run = s.run := rfl
@[simp] theorem State.setIram_prog (a : Nat) (v : Byte) : (s.setIram a v).prog = s.prog := rfl
@[simp] theorem State.setIram_ports (a : Nat) (v : Byte) : (s.setIram a v).ports = s.ports := rfl
@[simp] theorem State.setIram_pins (a : Nat) (v : Byte) : (s.setIram a v).pins = s.pins := rfl
@[simp] theorem State.setIram_pinDraws (a : Nat) (v : Byte) : (s.setIram a v).pinDraws = s.pinDraws := rfl
@[simp] theorem State.setIram_events (a : Nat) (v : Byte) : (s.setIram a v).events = s.events := rfl
@[simp] theorem State.setIram_result (a : Nat) (v : Byte) : (s.setIram a v).result = s.result := rfl

/-! ### State.setSfr -/

@[simp] theorem State.setSfr_variant (o v : Byte) : (s.setSfr o v).variant = s.variant := rfl
@[simp] theorem State.setSfr_pc (o v : Byte) : (s.setSfr o v).pc = s.pc := rfl
@[simp] theorem State.setSfr_iram (o v : Byte) : (s.setSfr o v).iram = s.iram := rfl
@[simp] theorem State.setSfr_sfr (o v : Byte) : (s.setSfr o v).sfr = s.sfr.write o.toNat v := rfl
@[simp] theorem State.setSfr_rmw (o v : Byte) : (s.setSfr o v).rmw = s.rmw := rfl
@[simp] theorem State.setSfr_run (o v : Byte) : (s.setSfr o v).run = s.run := rfl
@[simp] theorem State.setSfr_prog (o v : Byte) : (s.setSfr o v).prog = s.prog := rfl
@[simp] theorem State.setSfr_ports (o v : Byte) : (s.setSfr o v).ports = s.ports := rfl
@[simp] theorem State.setSfr_pins (o v : Byte) : (s.setSfr o v).pins = s.pins := rfl
@[simp] theorem State.setSfr_pinDraws (o v : Byte) : (s.setSfr o v).pinDraws = s.pinDraws := rfl
@[simp] theorem State.setSfr_events (o v : Byte) : (s.setSfr o v).events = s.events := rfl
@[simp] theorem State.setSfr_result (o v : Byte) : (s.setSfr o v).result = s.result := rfl

/-! ### State.setPc -/

@[simp] theorem State.setPc_variant (a : Word) : (s.setPc a).variant = s.variant := rfl
@[simp] theorem State.setPc_pc (a : Word) : (s.setPc a).pc = a := rfl
@[simp] theorem State.setPc_iram (a : Word) : (s.setPc a).iram = s.iram := rfl
@[simp] theorem State.setPc_sfr (a : Word) : (s.setPc a).sfr = s.sfr := rfl
@[simp] theorem State.setPc_rmw (a : Word) : (s.setPc a).rmw = s.rmw := rfl
@[simp] theorem State.setPc_run (a : Word) : (s.setPc a).run = s.run := rfl
@[simp] theorem State.setPc_prog (a : Word) : (s.setPc a).prog = s.prog := rfl
@[simp] theorem State.setPc_ports (a : Word) : (s.setPc a).ports = s.ports := rfl
@[simp] theorem State.setPc_pins (a : Word) : (s.setPc a).pins = s.pins := rfl
@[simp] theorem State.setPc_pinDraws (a : Word) : (s.setPc a).pinDraws = s.pinDraws := rfl
@[simp] theorem State.setPc_events (a : Word) : (s.setPc a).events = s.events := rfl
@[simp] theorem State.setPc_result (a : Word) : (s.setPc a).result = s.result := rfl

/-! ### State.setRmw -/

@[simp] theorem State.setRmw_variant (x : Bool) : (s.setRmw x).variant = s.variant := rfl
@[simp] theorem State.setRmw_pc (x : Bool) : (s.setRmw x).pc = s.pc := rfl
@[simp] theorem State.setRmw_iram (x : Bool) : (s.setRmw x).iram = s.iram := rfl
@[simp] theorem State.setRmw_sfr (x : Bool) : (s.setRmw x).sfr = s.sfr := rfl
@[simp] theorem State.setRmw_rmw (x : Bool) : (s.setRmw x).rmw = x := rfl
@[simp] theorem State.setRmw_run (x : Bool) : (s.setRmw x).run = s.run := rfl
@[simp] theorem State.setRmw_prog (x : Bool) : (s.setRmw x).prog = s.prog := rfl
@[simp] theorem State.setRmw_ports (x : Bool) : (s.setRmw x).ports = s.ports := rfl
@[simp] theorem State.setRmw_pins (x : Bool) : (s.setRmw x).pins = s.pins := rfl
@[simp] theorem State.setRmw_pinDraws (x : Bool) : (s.setRmw x).pinDraws = s.pinDraws := rfl
@[simp] theorem State.setRmw_events (x : Bool) : (s.setRmw x).events = s.events := rfl
@[simp] theorem State.setRmw_result (x : Bool) : (s.setRmw x).result = s.result := rfl

/-! ### State.setAcc -/

@[simp] theorem State.setAcc_variant (v : Byte) : (s.setAcc v).variant = s.variant := rfl
@[simp] theorem State.setAcc_pc (v : Byte) : (s.setAcc v).pc = s.pc := rfl
@[simp] theorem State.setAcc_iram (v : Byte) : (s.setAcc v).iram = s.iram := rfl
@[simp] theorem State.setAcc_sfr (v : Byte) : (s.setAcc v).sfr = s.sfr.write accOffset.toNat v := rfl
@[simp] theorem State.setAcc_rmw (v : Byte) : (s.setAcc v).rmw = s.rmw := rfl
@[simp] theorem State.setAcc_run (v : Byte) : (s.setAcc v).run = s.run := rfl
@[simp] theorem State.setAcc_prog (v : Byte) : (s.setAcc v).prog = s.prog := rfl
@[simp] theorem State.setAcc_ports (v : Byte) : (s.setAcc v).ports = s.ports := rfl
@[simp] theorem State.setAcc_pins (v : Byte) : (s.setAcc v).pins = s.pins := rfl
@[simp] theorem State.setAcc_pinDraws (v : Byte) : (s.setAcc v).pinDraws = s.pinDraws := rfl
@[simp] theorem State.setAcc_events (v : Byte) : (s.setAcc v).events = s.events := rfl
@[simp] theorem State.setAcc_result (v : Byte) : (s.setAcc v).result = s.result := rfl

/-! ### State.setPsw -/

@[simp] theorem State.setPsw_variant (v : Byte) : (s.setPsw v).variant = s.variant := rfl
@[simp] theorem State.setPsw_pc (v : Byte) : (s.setPsw v).pc = s.pc := rfl
@[simp] theorem State.setPsw_iram (v : Byte) : (s.setPsw v).iram = s.iram := rfl
@[simp] theorem State.setPsw_sfr (v : Byte) : (s.setPsw v).sfr = s.sfr.write pswOffset.toNat v := rfl
@[simp] theorem State.setPsw_rmw (v : Byte) : (s.setPsw v).rmw = s.rmw := rfl
@[simp] theorem State.setPsw_run (v : Byte) : (s.setPsw v).run = s.run := rfl
@[simp] theorem State.setPsw_prog (v : Byte) : (s.setPsw v).prog = s.prog := rfl
@[simp] theorem State.setPsw_ports (v : Byte) : (s.setPsw v).ports = s.ports := rfl
@[simp] theorem State.setPsw_pins (v : Byte) : (s.setPsw v).pins = s.pins := rfl
@[simp] theorem State.setPsw_pinDraws (v : Byte) : (s.setPsw v).pinDraws = s.pinDraws := rfl
@[simp] theorem State.setPsw_events (v : Byte) : (s.setPsw v).events = s.events := rfl
@[simp] theorem State.setPsw_result (v : Byte) : (s.setPsw v).result = s.result := rfl

/-! ### drawPin -/

@[simp] theorem drawPin_variant (p : Fin 4) : (drawPin s p).variant = s.variant := rfl
@[simp] theorem drawPin_pc (p : Fin 4) : (drawPin s p).pc = s.pc := rfl
@[simp] theorem drawPin_iram (p : Fin 4) : (drawPin s p).iram = s.iram := rfl
@[simp] theorem drawPin_sfr (p : Fin 4) : (drawPin s p).sfr = s.sfr := rfl
@[simp] theorem drawPin_rmw (p : Fin 4) : (drawPin s p).rmw = s.rmw := rfl
@[simp] theorem drawPin_run (p : Fin 4) : (drawPin s p).run = s.run := rfl
@[simp] theorem drawPin_prog (p : Fin 4) : (drawPin s p).prog = s.prog := rfl
@[simp] theorem drawPin_ports (p : Fin 4) : (drawPin s p).ports = s.ports := rfl
@[simp] theorem drawPin_pins (p : Fin 4) : (drawPin s p).pins = s.pins.tail := rfl
@[simp] theorem drawPin_pinDraws (p : Fin 4) : (drawPin s p).pinDraws = s.pinDraws + 1 := rfl
@[simp] theorem drawPin_events (p : Fin 4) : (drawPin s p).events = s.events ++ [.pin p (nextPin s p)] := rfl
@[simp] theorem drawPin_result (p : Fin 4) : (drawPin s p).result = s.result := rfl

/-! ### portDrive -/

@[simp] theorem portDrive_variant (p : Fin 4) (v : Byte) : (portDrive s p v).variant = s.variant := rfl
@[simp] theorem portDrive_pc (p : Fin 4) (v : Byte) : (portDrive s p v).pc = s.pc := rfl
@[simp] theorem portDrive_iram (p : Fin 4) (v : Byte) : (portDrive s p v).iram = s.iram := rfl
@[simp] theorem portDrive_sfr (p : Fin 4) (v : Byte) : (portDrive s p v).sfr = s.sfr := rfl
@[simp] theorem portDrive_rmw (p : Fin 4) (v : Byte) : (portDrive s p v).rmw = s.rmw := rfl
@[simp] theorem portDrive_run (p : Fin 4) (v : Byte) : (portDrive s p v).run = s.run := rfl
@[simp] theorem portDrive_prog (p : Fin 4) (v : Byte) : (portDrive s p v).prog = s.prog := rfl
@[simp] theorem portDrive_ports (p : Fin 4) (v : Byte) : (portDrive s p v).ports = s.ports := rfl
@[simp] theorem portDrive_pins (p : Fin 4) (v : Byte) : (portDrive s p v).pins = s.pins := rfl
@[simp] theorem portDrive_pinDraws (p : Fin 4) (v : Byte) : (portDrive s p v).pinDraws = s.pinDraws := rfl
@[simp] theorem portDrive_events (p : Fin 4) (v : Byte) : (portDrive s p v).events = s.events ++ [.drive p v] := rfl
@[simp] theorem portDrive_result (p : Fin 4) (v : Byte) : (portDrive s p v).result = s.result := rfl

/-! ### haltUnimplemented -/

@[simp] theorem haltUnimplemented_variant (op : Byte) (addr : Word) : (haltUnimplemented s op addr).variant = s.variant := rfl
@[simp] theorem haltUnimplemented_pc (op : Byte) (addr : Word) : (haltUnimplemented s op addr).pc = s.pc := rfl
@[simp] theorem haltUnimplemented_iram (op : Byte) (addr : Word) : (haltUnimplemented s op addr).iram = s.iram := rfl
@[simp] theorem haltUnimplemented_sfr (op : Byte) (addr : Word) : (haltUnimplemented s op addr).sfr = s.sfr := rfl
@[simp] theorem haltUnimplemented_rmw (op : Byte) (addr : Word) : (haltUnimplemented s op addr).rmw = s.rmw := rfl
@[simp] theorem haltUnimplemented_run (op : Byte) (addr : Word) : (haltUnimplemented s op addr).run = .halted op addr := rfl
@[simp] theorem haltUnimplemented_prog (op : Byte) (addr : Word) : (haltUnimplemented s op addr).prog = s.prog := rfl
@[simp] theorem haltUnimplemented_ports (op : Byte) (addr : Word) : (haltUnimplemented s op addr).ports = s.ports := rfl
@[simp] theorem haltUnimplemented_pins (op : Byte) (addr : Word) : (haltUnimplemented s op addr).pins = s.pins := rfl
@[simp] theorem haltUnimplemented_pinDraws (op : Byte) (addr : Word) : (haltUnimplemented s op addr).pinDraws = s.pinDraws := rfl
@[simp] theorem haltUnimplemented_events (op : Byte) (addr : Word) : (haltUnimplemented s op addr).events = s.events := rfl
@[simp] theorem haltUnimplemented_result (op : Byte) (addr : Word) : (haltUnimplemented s op addr).result = some (.fault (.unimplementedOpcode op addr)) := rfl

/-! ### recomputeParity -/

@[simp] theorem recomputeParity_variant : (recomputeParity s).variant = s.variant := rfl
@[simp] theorem recomputeParity_pc : (recomputeParity s).pc = s.pc := rfl
@[simp] theorem recomputeParity_iram : (recomputeParity s).iram = s.iram := rfl
@[simp] theorem recomputeParity_sfr : (recomputeParity s).sfr = (s.setPsw ((s.psw &&& 0xFE) ||| flagBit (parity s.acc) 0)).sfr := rfl
@[simp] theorem recomputeParity_rmw : (recomputeParity s).rmw = s.rmw := rfl
@[simp] theorem recomputeParity_run : (recomputeParity s).run = s.run := rfl
@[simp] theorem recomputeParity_prog : (recomputeParity s).prog = s.prog := rfl
@[simp] theorem recomputeParity_ports : (recomputeParity s).ports = s.ports := rfl
@[simp] theorem recomputeParity_pins : (recomputeParity s).pins = s.pins := rfl
@[simp] theorem recomputeParity_pinDraws : (recomputeParity s).pinDraws = s.pinDraws := rfl
@[simp] theorem recomputeParity_events : (recomputeParity s).events = s.events := rfl
@[simp] theorem recomputeParity_result : (recomputeParity s).result = s.result := rfl

/-! ### completeStep -/

@[simp] theorem completeStep_variant (i : Instr) : (completeStep i s).variant = s.variant := rfl
@[simp] theorem completeStep_pc (i : Instr) : (completeStep i s).pc = s.pc := rfl
@[simp] theorem completeStep_iram (i : Instr) : (completeStep i s).iram = s.iram := rfl
@[simp] theorem completeStep_sfr (i : Instr) : (completeStep i s).sfr = (recomputeParity s).sfr := rfl
@[simp] theorem completeStep_rmw (i : Instr) : (completeStep i s).rmw = s.rmw := rfl
@[simp] theorem completeStep_run (i : Instr) : (completeStep i s).run = s.run := rfl
@[simp] theorem completeStep_prog (i : Instr) : (completeStep i s).prog = s.prog := rfl
@[simp] theorem completeStep_ports (i : Instr) : (completeStep i s).ports = s.ports := rfl
@[simp] theorem completeStep_pins (i : Instr) : (completeStep i s).pins = s.pins := rfl
@[simp] theorem completeStep_pinDraws (i : Instr) : (completeStep i s).pinDraws = s.pinDraws := rfl
@[simp] theorem completeStep_events (i : Instr) : (completeStep i s).events = s.events := rfl
@[simp] theorem completeStep_result (i : Instr) : (completeStep i s).result = some (.ok (clockCycles i)) := rfl

/-! ### setArithFlags -/

@[simp] theorem setArithFlags_variant (cy ac ov : Bool) : (setArithFlags s cy ac ov).variant = s.variant := rfl
@[simp] theorem setArithFlags_pc (cy ac ov : Bool) : (setArithFlags s cy ac ov).pc = s.pc := rfl
@[simp] theorem setArithFlags_iram (cy ac ov : Bool) : (setArithFlags s cy ac ov).iram = s.iram := rfl
@[simp] theorem setArithFlags_sfr (cy ac ov : Bool) : (setArithFlags s cy ac ov).sfr = (s.setPsw ((s.psw &&& 0x3B) ||| flagBit cy 7 ||| flagBit ac 6 ||| flagBit ov 2)).sfr := rfl
@[simp] theorem setArithFlags_rmw (cy ac ov : Bool) : (setArithFlags s cy ac ov).rmw = s.rmw := rfl
@[simp] theorem setArithFlags_run (cy ac ov : Bool) : (setArithFlags s cy ac ov).run = s.run := rfl
@[simp] theorem setArithFlags_prog (cy ac ov : Bool) : (setArithFlags s cy ac ov).prog = s.prog := rfl
@[simp] theorem setArithFlags_ports (cy ac ov : Bool) : (setArithFlags s cy ac ov).ports = s.ports := rfl
@[simp] theorem setArithFlags_pins (cy ac ov : Bool) : (setArithFlags s cy ac ov).pins = s.pins := rfl
@[simp] theorem setArithFlags_pinDraws (cy ac ov : Bool) : (setArithFlags s cy ac ov).pinDraws = s.pinDraws := rfl
@[simp] theorem setArithFlags_events (cy ac ov : Bool) : (setArithFlags s cy ac ov).events = s.events := rfl
@[simp] theorem setArithFlags_result (cy ac ov : Bool) : (setArithFlags s cy ac ov).result = s.result := rfl

/-! ### exchangeBoundary -/

@[simp] theorem exchangeBoundary_variant (prog : Memory) (ports : PortBoundary) (pins : List Byte) : (exchangeBoundary prog ports pins s).variant = s.variant := rfl
@[simp] theorem exchangeBoundary_pc (prog : Memory) (ports : PortBoundary) (pins : List Byte) : (exchangeBoundary prog ports pins s).pc = s.pc := rfl
@[simp] theorem exchangeBoundary_iram (prog : Memory) (ports : PortBoundary) (pins : List Byte) : (exchangeBoundary prog ports pins s).iram = s.iram := rfl
@[simp] theorem exchangeBoundary_sfr (prog : Memory) (ports : PortBoundary) (pins : List Byte) : (exchangeBoundary prog ports pins s).sfr = s.sfr := rfl
@[simp] theorem exchangeBoundary_rmw (prog : Memory) (ports : PortBoundary) (pins : List Byte) : (exchangeBoundary prog ports pins s).rmw = s.rmw := rfl
@[simp] theorem exchangeBoundary_run (prog : Memory) (ports : PortBoundary) (pins : List Byte) : (exchangeBoundary prog ports pins s).run = s.run := rfl
@[simp] theorem exchangeBoundary_prog (prog : Memory) (ports : PortBoundary) (pins : List Byte) : (exchangeBoundary prog ports pins s).prog = prog := rfl
@[simp] theorem exchangeBoundary_ports (prog : Memory) (ports : PortBoundary) (pins : List Byte) : (exchangeBoundary prog ports pins s).ports = ports := rfl
@[simp] theorem exchangeBoundary_pins (prog : Memory) (ports : PortBoundary) (pins : List Byte) : (exchangeBoundary prog ports pins s).pins = pins := rfl
@[simp] theorem exchangeBoundary_pinDraws (prog : Memory) (ports : PortBoundary) (pins : List Byte) : (exchangeBoundary prog ports pins s).pinDraws = s.pinDraws := rfl
@[simp] theorem exchangeBoundary_events (prog : Memory) (ports : PortBoundary) (pins : List Byte) : (exchangeBoundary prog ports pins s).events = s.events := rfl
@[simp] theorem exchangeBoundary_result (prog : Memory) (ports : PortBoundary) (pins : List Byte) : (exchangeBoundary prog ports pins s).result = s.result := rfl

/-! ### hostReset -/

@[simp] theorem hostReset_variant (v : Variant) (ram unnamed : Memory) : (hostReset v ram unnamed s).variant = v := rfl
@[simp] theorem hostReset_pc (v : Variant) (ram unnamed : Memory) : (hostReset v ram unnamed s).pc = 0x0000 := rfl
@[simp] theorem hostReset_iram (v : Variant) (ram unnamed : Memory) : (hostReset v ram unnamed s).iram = ram.clip v.ramSize := rfl
@[simp] theorem hostReset_sfr (v : Variant) (ram unnamed : Memory) : (hostReset v ram unnamed s).sfr = resetWindow unnamed := rfl
@[simp] theorem hostReset_rmw (v : Variant) (ram unnamed : Memory) : (hostReset v ram unnamed s).rmw = false := rfl
@[simp] theorem hostReset_run (v : Variant) (ram unnamed : Memory) : (hostReset v ram unnamed s).run = .fetching := rfl
@[simp] theorem hostReset_prog (v : Variant) (ram unnamed : Memory) : (hostReset v ram unnamed s).prog = s.prog := rfl
@[simp] theorem hostReset_ports (v : Variant) (ram unnamed : Memory) : (hostReset v ram unnamed s).ports = s.ports := rfl
@[simp] theorem hostReset_pins (v : Variant) (ram unnamed : Memory) : (hostReset v ram unnamed s).pins = s.pins := rfl
@[simp] theorem hostReset_pinDraws (v : Variant) (ram unnamed : Memory) : (hostReset v ram unnamed s).pinDraws = s.pinDraws := rfl
@[simp] theorem hostReset_events (v : Variant) (ram unnamed : Memory) : (hostReset v ram unnamed s).events = s.events := rfl
@[simp] theorem hostReset_result (v : Variant) (ram unnamed : Memory) : (hostReset v ram unnamed s).result = none := rfl

end Sys2Proof.Machine
end

