-- ==== Sys2Proof/Laws/Ops.lean ====
section
/-! SUPPORT. One lemma per shared operation that says everything it can do. -/

namespace Sys2Proof.Machine

/-! ### Stored bytes of the arrays -/

@[simp] theorem sfrAt_setSfr (s : State) (o v o' : Byte) :
    (s.setSfr o v).sfrAt o' = if o' = o then v else s.sfrAt o' := by
  simp [State.sfrAt, State.setSfr, Memory.read_write, BitVec.toNat_inj]

@[simp] theorem iramAt_setIram (s : State) (a b : Nat) (v : Byte) :
    (s.setIram a v).iramAt b = if b = a then v else s.iramAt b := by
  simp [State.iramAt, State.setIram, Memory.read_write]

@[simp] theorem iramAt_setSfr (s : State) (o v : Byte) (a : Nat) : (s.setSfr o v).iramAt a = s.iramAt a := rfl
@[simp] theorem sfrAt_setIram (s : State) (a : Nat) (v o : Byte) : (s.setIram a v).sfrAt o = s.sfrAt o := rfl
@[simp] theorem sfrAt_portDrive (s : State) (p : Fin 4) (v o : Byte) : (portDrive s p v).sfrAt o = s.sfrAt o := rfl
@[simp] theorem iramAt_portDrive (s : State) (p : Fin 4) (v : Byte) (a : Nat) :
    (portDrive s p v).iramAt a = s.iramAt a := rfl
@[simp] theorem sfrAt_drawPin (s : State) (p : Fin 4) (o : Byte) : (drawPin s p).sfrAt o = s.sfrAt o := rfl
@[simp] theorem iramAt_drawPin (s : State) (p : Fin 4) (a : Nat) : (drawPin s p).iramAt a = s.iramAt a := rfl
@[simp] theorem sfrAt_setPc (s : State) (a : Word) (o : Byte) : (s.setPc a).sfrAt o = s.sfrAt o := rfl
@[simp] theorem iramAt_setPc (s : State) (a : Word) (b : Nat) : (s.setPc a).iramAt b = s.iramAt b := rfl
@[simp] theorem sfrAt_setRmw (s : State) (x : Bool) (o : Byte) : (s.setRmw x).sfrAt o = s.sfrAt o := rfl
@[simp] theorem iramAt_setRmw (s : State) (x : Bool) (a : Nat) : (s.setRmw x).iramAt a = s.iramAt a := rfl

@[simp] theorem acc_setAcc (s : State) (v : Byte) : (s.setAcc v).acc = v := by
  simp [State.acc, State.setAcc]
@[simp] theorem psw_setPsw (s : State) (v : Byte) : (s.setPsw v).psw = v := by
  simp [State.psw, State.setPsw]
@[simp] theorem psw_setAcc (s : State) (v : Byte) : (s.setAcc v).psw = s.psw := by
  simp [State.psw, State.setAcc, accOffset, pswOffset]
@[simp] theorem acc_setPsw (s : State) (v : Byte) : (s.setPsw v).acc = s.acc := by
  simp [State.acc, State.setPsw, accOffset, pswOffset]

/-! ### Ports -/

theorem portAt_portOffset (p : Fin 4) : portAt (portOffset p) = some p := by revert p; decide

theorem portAt_eq_some {o : Byte} {p : Fin 4} (h : portAt o = some p) : o = portOffset p := by
  revert p; revert o; decide

theorem portAt_eq_none {o : Byte} : portAt o = none ↔ isPortByte o = false := by
  revert o; decide

theorem portOffset_ge (p : Fin 4) : 0x80 ≤ portOffset p := by revert p; decide

theorem nextPin_unbound {s : State} (h : s.ports = .unbound) (p : Fin 4) : nextPin s p = 0x00 := by
  simp [nextPin, h]

theorem nextPin_queued {s : State} {v : Byte} {vs : List Byte} (h : s.ports = .attached) (hp : s.pins = v :: vs)
    (p : Fin 4) : nextPin s p = v := by
  simp [nextPin, attachedPin, h, hp]

/-! ### The SFR window path -/

/-- What a read of the window can do: the stored byte with no effect, or, at a port outside a
read-modify-write, the latch and one pin sample. -/
theorem sfrRead_cases (s : State) (o : Byte) :
    (sfrRead s o = (s.sfrAt o, s) ∧ (isPortByte o = false ∨ s.rmw = true)) ∨
      ∃ p, o = portOffset p ∧ s.rmw = false ∧ sfrRead s o = (s.sfrAt o &&& nextPin s p, drawPin s p) := by
  unfold sfrRead
  split
  · next p h =>
    cases hr : s.rmw with
    | true => exact .inl ⟨rfl, .inr rfl⟩
    | false => exact .inr ⟨p, portAt_eq_some h, rfl, rfl⟩
  · next h => exact .inl ⟨rfl, .inl (portAt_eq_none.1 h)⟩

/-- What a write of the window can do: nothing below 0x80, else store the byte, and drive if it is a port. -/
theorem sfrWrite_cases (s : State) (o v : Byte) :
    (o < 0x80 ∧ sfrWrite s o v = s) ∨
      (0x80 ≤ o ∧ isPortByte o = false ∧ sfrWrite s o v = s.setSfr o v) ∨
      ∃ p, o = portOffset p ∧ 0x80 ≤ o ∧ sfrWrite s o v = portDrive (s.setSfr o v) p v := by
  unfold sfrWrite
  by_cases h : o < 0x80
  · exact .inl ⟨h, if_pos h⟩
  · have h' : 0x80 ≤ o := by simpa [BitVec.not_lt] using h
    rw [if_neg h]
    split
    · next p hp => exact .inr (.inr ⟨p, portAt_eq_some hp, h', rfl⟩)
    · next hp => exact .inr (.inl ⟨h', portAt_eq_none.1 hp, rfl⟩)

/-! ### The unified path -/

theorem ramSize_le (v : Variant) : v.ramSize ≤ 0x100 := by
  have h := v.dataW.isLt
  calc v.ramSize = 2 ^ v.dataW.val := rfl
    _ ≤ 2 ^ 8 := Nat.pow_le_pow_right (by omega) (by omega)

theorem route_ram {v : Variant} {u : Word} (h : u.toNat < v.ramSize) : route v u = .ram u.toNat := by
  simp [route, h]

theorem route_window {v : Variant} {u : Word} (h : 0x100 ≤ u.toNat) (h' : u.toNat < 0x200) :
    route v u = .window (u.setWidth 8) := by
  have hr := ramSize_le v
  have : ¬ u.toNat < v.ramSize := by omega
  simp [route, this, h, h']

theorem route_nothing {v : Variant} {u : Word} (h : v.ramSize ≤ u.toNat) (h' : u.toNat < 0x100 ∨ 0x200 ≤ u.toNat) :
    route v u = .nothing := by
  have h1 : ¬ u.toNat < v.ramSize := by omega
  have h2 : ¬ (0x100 ≤ u.toNat ∧ u.toNat < 0x200) := by omega
  rw [route, if_neg h1, if_neg h2]

/-- A route to internal RAM is the address itself, inside the array. -/
theorem route_eq_ram {v : Variant} {u : Word} {a : Nat} (h : route v u = .ram a) : a = u.toNat ∧ a < v.ramSize := by
  unfold route at h
  split at h
  · cases h; exact ⟨rfl, ‹_›⟩
  · split at h <;> cases h

/-- A route to the window is the address less 0x100. -/
theorem route_eq_window {v : Variant} {u : Word} {o : Byte} (h : route v u = .window o) :
    u.toNat = 0x100 + o.toNat := by
  unfold route at h
  split at h
  · cases h
  · split at h
    · cases h; simp only [BitVec.toNat_setWidth]; omega
    · cases h

/-- Two addresses with storage behind them reach the same byte only if they are equal. -/
theorem route_injective {v : Variant} {u w : Word} (h : route v u = route v w) (hn : route v u ≠ .nothing) :
    u = w := by
  apply BitVec.eq_of_toNat_eq
  cases hu : route v u with
  | ram a => exact (route_eq_ram hu).1.symm.trans (route_eq_ram (h.symm.trans hu)).1
  | window o => exact (route_eq_window hu).trans (route_eq_window (h.symm.trans hu)).symm
  | nothing => exact absurd hu hn

/-- A byte of the data space below 0x100 is read with no effect. -/
theorem readByte_below (s : State) {u : Word} (h : u.toNat < 0x100) :
    readByte s u = (if u.toNat < s.variant.ramSize then s.iramAt u.toNat else 0x00, s) := by
  by_cases hr : u.toNat < s.variant.ramSize
  · simp [readByte, route_ram hr, hr]
  · simp [readByte, route_nothing (Nat.le_of_not_lt hr) (.inl h), hr]

/-- What a write of the data space can do. -/
theorem writeByte_cases (s : State) (u : Word) (v : Byte) :
    (writeByte s u v = s) ∨ (u.toNat < s.variant.ramSize ∧ writeByte s u v = s.setIram u.toNat v) ∨
      ∃ o, u.toNat = 0x100 + o.toNat ∧ 0x80 ≤ o ∧
        (isPortByte o = false ∧ writeByte s u v = s.setSfr o v ∨
          ∃ p, o = portOffset p ∧ writeByte s u v = portDrive (s.setSfr o v) p v) := by
  unfold writeByte
  cases hu : route s.variant u with
  | ram a =>
    obtain ⟨rfl, ha⟩ := route_eq_ram hu
    exact .inr (.inl ⟨ha, rfl⟩)
  | window o =>
    rcases sfrWrite_cases s o v with ⟨-, h⟩ | ⟨h80, hp, h⟩ | ⟨p, hp, h80, h⟩
    · exact .inl h
    · exact .inr (.inr ⟨o, route_eq_window hu, h80, .inl ⟨hp, h⟩⟩)
    · exact .inr (.inr ⟨o, route_eq_window hu, h80, .inr ⟨p, hp, h⟩⟩)
  | nothing => exact .inl rfl

/-- What a read of the data space can do to the state. -/
theorem readByte_state (s : State) (u : Word) :
    (readByte s u).2 = s ∨ ∃ p, s.rmw = false ∧ (readByte s u).2 = drawPin s p := by
  unfold readByte
  cases route s.variant u with
  | ram a => exact .inl rfl
  | window o =>
    rcases sfrRead_cases s o with ⟨h, -⟩ | ⟨p, -, hr, h⟩
    · exact .inl (congrArg Prod.snd h)
    · exact .inr ⟨p, hr, congrArg Prod.snd h⟩
  | nothing => exact .inl rfl

/-- A write changes the stored byte of its own address only. -/
theorem stored_writeByte_ne (s : State) {u w : Word} (v : Byte) (h : w ≠ u) :
    (writeByte s u v).stored w = s.stored w := by
  rcases writeByte_cases s u v with e | ⟨hu, e⟩ | ⟨o, ho, -, ⟨-, e⟩ | ⟨p, -, e⟩⟩ <;> rw [e]
  · unfold State.stored
    simp only [State.setIram_variant]
    cases hw : route s.variant w with
    | ram a =>
      have : a ≠ u.toNat := fun ha => h (BitVec.eq_of_toNat_eq (by rw [← (route_eq_ram hw).1, ha]))
      simp [this]
    | window o => rfl
    | nothing => rfl
  all_goals
    unfold State.stored
    simp only [State.setSfr_variant, portDrive_variant]
    cases hw : route s.variant w with
    | ram a => rfl
    | window o' =>
      have : o' ≠ o := fun ha => h (BitVec.eq_of_toNat_eq (by rw [route_eq_window hw, ho, ha]))
      simp [this]
    | nothing => rfl

/-! ### Operand forms -/

theorem directAddr_low {d : Byte} (h : d < 0x80) : (directAddr d).toNat = d.toNat := by
  have := d.isLt
  rw [directAddr, if_pos h, BitVec.toNat_setWidth]; omega

theorem directAddr_high {d : Byte} (h : 0x80 ≤ d) : (directAddr d).toNat = 0x100 + d.toNat := by
  have h' : ¬ d < 0x80 := by simpa [BitVec.not_lt] using h
  have := d.isLt
  rw [directAddr, if_neg h', BitVec.toNat_add, BitVec.toNat_setWidth, show (0x100 : Word).toNat = 0x100 from rfl]
  omega

theorem route_direct_high (v : Variant) {d : Byte} (h : 0x80 ≤ d) : route v (directAddr d) = .window d := by
  have e := directAddr_high h
  have := d.isLt
  rw [route_window (by omega) (by omega)]
  congr 1
  apply BitVec.eq_of_toNat_eq
  rw [BitVec.toNat_setWidth, e]; omega

theorem indirectAddr_toNat (a : Byte) : (indirectAddr a).toNat = a.toNat := by
  have := a.isLt
  simp [indirectAddr]; omega

theorem regAddr_lt (s : State) (n : Byte) : (regAddr s n).toNat < 0x20 := by
  unfold regAddr
  rw [BitVec.toNat_or]
  refine Nat.or_lt_two_pow (n := 5) ?_ ?_
  · exact lt_of_le_of_lt Nat.and_le_right (by decide)
  · exact lt_of_le_of_lt Nat.and_le_right (by decide)

theorem regUnified_toNat (s : State) (n : Byte) : (regUnified s n).toNat = (regAddr s n).toNat := by
  have := (regAddr s n).isLt
  simp [regUnified]; omega

/-- Reading a register changes nothing, so keeping the byte alone loses nothing. -/
theorem regRead_eq (s : State) (n : Byte) : readByte s (regUnified s n) = (regRead s n, s) := by
  have h := regAddr_lt s n
  have e := regUnified_toNat s n
  rw [regRead, readByte_below s (by omega)]

/-! ### The step -/

/-- What a fetch changes. -/
theorem fetchByte_state (s : State) : (fetchByte s).2 = { s with pc := s.nextAddr + 1 } := rfl

/-- Fetches change pc alone. -/
theorem fetchBytes_state (k : Nat) (s : State) :
    (fetchBytes k s).2 = { s with pc := (fetchBytes k s).2.pc } := by
  induction k generalizing s with
  | zero => rfl
  | succ k ih =>
    have h := ih (fetchByte s).2
    simp only [fetchBytes]
    rw [h]
    rfl

theorem finish_eq_next {i : Instr} {o : Host.Outcome State Fault Refusal} {t : State}
    (h : finish i o = .next t) : ∃ u, o = .next u ∧ t = completeStep i u := by
  cases o with
  | next u => exact ⟨u, rfl, by simpa [finish, eq_comm] using h⟩
  | fault f => simp [finish] at h
  | refused r => simp [finish] at h

/-- What a step that answers a next state did: it took the halt of a reserved first byte, or it executed an
instruction and completed. -/
theorem step_cases {s t : State} (h : step s = .next t) :
    s.run = .fetching ∧
      ((∃ op addr u, fetchInstr s = .unimplemented op addr u ∧ t = haltUnimplemented u op addr) ∨
        ∃ i u w, fetchInstr s = .instr i u ∧ exec i u = .next w ∧ t = completeStep i w) := by
  unfold step at h
  split at h
  · cases h
  · next hr =>
    refine ⟨hr, ?_⟩
    split at h
    · next op addr u hf => cases h; exact .inl ⟨op, addr, u, hf, rfl⟩
    · next i u hf =>
      obtain ⟨w, hw, ht⟩ := finish_eq_next h
      exact .inr ⟨i, u, w, hf, hw, ht⟩

end Sys2Proof.Machine
end

