-- ==== Sys2Proof/Laws/PerInstr.lean ====
section
/-! SUPPORT. A fact about every instruction as syntax, stated per constructor: its encoding has its length. -/

namespace Sys2Proof.Laws.EncodedLength

/-- The bytes of an instruction are as many as the length of its row, 1 to 3 (30_encoding.md R80, R84). -/
def Statement (i : Instr) : Prop := (encode i).length = i.length ∧ 1 ≤ i.length ∧ i.length ≤ 3

theorem ljmp (addr : Word) : Statement (.ljmp addr) := by simp [Statement, encode, Instr.length]
theorem sjmp (rel : Byte) : Statement (.sjmp rel) := by simp [Statement, encode, Instr.length]
theorem movAImm (imm : Byte) : Statement (.movAImm imm) := by simp [Statement, encode, Instr.length]
theorem movDirImm (d imm : Byte) : Statement (.movDirImm d imm) := by simp [Statement, encode, Instr.length]
theorem movRnImm (n imm : Byte) : Statement (.movRnImm n imm) := by simp [Statement, encode, Instr.length]
theorem addADir (d : Byte) : Statement (.addADir d) := by simp [Statement, encode, Instr.length]
theorem movADir (d : Byte) : Statement (.movADir d) := by simp [Statement, encode, Instr.length]
theorem movDirA (d : Byte) : Statement (.movDirA d) := by simp [Statement, encode, Instr.length]
theorem movARn (n : Byte) : Statement (.movARn n) := by simp [Statement, encode, Instr.length]
theorem movRnA (n : Byte) : Statement (.movRnA n) := by simp [Statement, encode, Instr.length]
theorem movAInd (i : Byte) : Statement (.movAInd i) := by simp [Statement, encode, Instr.length]
theorem movIndA (i : Byte) : Statement (.movIndA i) := by simp [Statement, encode, Instr.length]
theorem setb (b : Byte) : Statement (.setb b) := by simp [Statement, encode, Instr.length]
theorem clr (b : Byte) : Statement (.clr b) := by simp [Statement, encode, Instr.length]
theorem djnz (n rel : Byte) : Statement (.djnz n rel) := by simp [Statement, encode, Instr.length]

end Sys2Proof.Laws.EncodedLength
end

