-- ==== Sys2Proof/Tests/Slice0.lean ====
section
/-! SUPPORT. Tests against the vectors of 95_test_vectors.md, decoding of written-out words, the well-formedness smoke, and witnesses for the hypotheses of the statements. -/

namespace Sys2Proof.Tests

open Sys2Proof.Machine

/-! ### Well-formedness refuses each ill-formed term -/

theorem test_wellFormed_refuses_register_8_immediate : (Instr.movRnImm 8 0).wellFormed = false := by decide
theorem test_wellFormed_refuses_load_from_register_8 : (Instr.movARn 8).wellFormed = false := by decide
theorem test_wellFormed_refuses_store_to_register_8 : (Instr.movRnA 8).wellFormed = false := by decide
theorem test_wellFormed_refuses_pointer_2_load : (Instr.movAInd 2).wellFormed = false := by decide
theorem test_wellFormed_refuses_pointer_2_store : (Instr.movIndA 2).wellFormed = false := by decide
theorem test_wellFormed_refuses_djnz_register_8 : (Instr.djnz 8 0).wellFormed = false := by decide

/-! ### Decoding of words written out from spec/opcode_table.json's encodings, one for every constructor -/

/-- The instruction a list of bytes decodes to when nothing is left over. -/
def reads (bytes : List Byte) (i : Instr) : Bool := decode bytes == .ok (i, [])

theorem test_decode_ljmp : reads [0b00000010, 0b00010010, 0b00110100] (.ljmp 0x1234) = true := by decide
theorem test_decode_sjmp : reads [0b10000000, 0b11111110] (.sjmp 0xFE) = true := by decide
theorem test_decode_movAImm : reads [0b01110100, 0b00000101] (.movAImm 0x05) = true := by decide
theorem test_decode_movDirImm : reads [0b01110101, 0b11010000, 0b00001000] (.movDirImm 0xD0 0x08) = true := by decide
theorem test_decode_movRnImm : reads [0b01111101, 0b10011010] (.movRnImm 5 0x9A) = true := by decide
theorem test_decode_addADir : reads [0b00100101, 0b00100000] (.addADir 0x20) = true := by decide
theorem test_decode_movADir : reads [0b11100101, 0b10010000] (.movADir 0x90) = true := by decide
theorem test_decode_movDirA : reads [0b11110101, 0b00110001] (.movDirA 0x31) = true := by decide
theorem test_decode_movARn : reads [0b11101010] (.movARn 2) = true := by decide
theorem test_decode_movRnA : reads [0b11111111] (.movRnA 7) = true := by decide
theorem test_decode_movAInd : reads [0b11100111] (.movAInd 1) = true := by decide
theorem test_decode_movIndA : reads [0b11110110] (.movIndA 0) = true := by decide
theorem test_decode_setb : reads [0b11010010, 0b00000111] (.setb 0x07) = true := by decide
theorem test_decode_clr : reads [0b11000010, 0b10010000] (.clr 0x90) = true := by decide
theorem test_decode_djnz : reads [0b11011110, 0b11111100] (.djnz 6 0xFC) = true := by decide

/-- Neighbours that must fault (95_test_vectors.md, decoder). -/
theorem test_decode_neighbours :
    [0x00, 0x01, 0x03, 0x24, 0x26, 0x73, 0x76, 0x77, 0x81, 0xC1, 0xC3, 0xD1, 0xD3, 0xD4, 0xD7, 0xE0, 0xE3, 0xE4,
      0xF0, 0xF3, 0xF4].all (fun b => (lookupOpcode b).isNone) = true := by decide

theorem test_decodeTableWord_ljmp : decodeTableWord 24 0x341202 = some (.ljmp 0x1234) := by decide
theorem test_decodeTableWord_short : decodeTableWord 8 0xFFF5 = some (.movDirA 0x00) := by decide

/-! ### One step on a small state -/

/-- Writes a list of bytes at consecutive addresses. -/
def bytesAt (a : Nat) : List Byte → Memory → Memory
  | [], m => m
  | b :: bs, m => (bytesAt (a + 1) bs m).write a b

/-- The reset state with program bytes at address 0. -/
def boot (bytes : List Byte) : State := { State.reset with prog := bytesAt 0 bytes [] }

/-- The answer is a next state with this property. -/
def answers (o : Host.Outcome State Fault Refusal) (p : State → Bool) : Bool :=
  match o with
  | .next t => p t
  | .fault _ => false
  | .refused _ => false

/-- The answer is this fault. -/
def faultsWith (o : Host.Outcome State Fault Refusal) (f : Fault) : Bool :=
  match o with
  | .next _ => false
  | .fault g => g == f
  | .refused _ => false

/-- ACC, PSW, pc and the returned clock cycles are these. -/
def shows (acc psw : Byte) (pc : Word) (clocks : Nat) (t : State) : Bool :=
  t.acc == acc && t.psw == psw && t.pc == pc && t.result == some (.ok clocks)

/-- J1 -/
theorem test_ljmp : answers (step (boot [0x02, 0x12, 0x34])) (shows 0 0 0x1234 24) = true := by decide
/-- J3: the operand bytes come from the wrapped addresses -/
theorem test_ljmp_straddles_the_program_space :
    answers (step { State.reset with pc := 0x0FFF, prog := [(0, 0xAB), (1, 0xCD), (0xFFF, 0x02)] })
      (shows 0 0 0xABCD 24) = true := by decide
/-- J7 -/
theorem test_sjmp_wraps_backwards : answers (step (boot [0x80, 0x80])) (shows 0 0 0xFF82 24) = true := by decide
/-- J9 -/
theorem test_sjmp_full_width_bus :
    answers (step { State.reset with variant := ⟨16, 7⟩, pc := 0xFFFE, prog := [(0xFFFE, 0x80), (0xFFFF, 0x10)] })
      (shows 0 0 0x0010 24) = true := by decide
/-- I3 -/
theorem test_movAImm_keeps_carry :
    answers (step (((boot [0x74, 0x00]).setAcc 0x01).setPsw 0x81)) (shows 0 0x80 2 12) = true := by decide
/-- I4 -/
theorem test_movDirImm_psw : answers (step (boot [0x75, 0xD0, 0xFF])) (shows 0 0xFE 3 24) = true := by decide
/-- I7 -/
theorem test_movDirImm_port :
    answers (step (boot [0x75, 0x90, 0x55]))
      (fun t => t.sfrAt 0x90 == 0x55 && t.events == [.drive 1 0x55]) = true := by decide
/-- I11 -/
theorem test_movRnImm_bank_3 :
    answers (step ((boot [0x7F, 0x9A]).setPsw 0x18)) (fun t => t.iram == [(0x1F, 0x9A)]) = true := by decide
/-- A3: the operand is the old PSW -/
theorem test_add_psw :
    answers (step (((boot [0x25, 0xD0]).setAcc 0x01).setPsw 0x81)) (shows 0x82 0x00 2 12) = true := by decide
/-- A5 -/
theorem test_add_wraps :
    answers (step ((((boot [0x25, 0x30]).setAcc 0xFF).setPsw 0x3A).setIram 0x30 0x01)) (shows 0x00 0xFA 2 12) = true := by
  decide
/-- M2 -/
theorem test_movADir_port :
    answers (step { (boot [0xE5, 0x90]).setSfr 0x90 0xFE with pins := [0x0F] })
      (fun t => shows 0x0E 0x01 2 12 t && t.events == [.pin 1 0x0F] && t.pins == []) = true := by decide
/-- 20_memory.md R55: with nothing attached a port read is 0x00 though the latch is 0xFF -/
theorem test_movADir_unbound_port :
    answers (step { (boot [0xE5, 0x90]).setAcc 0x33 with ports := .unbound })
      (fun t => shows 0x00 0x00 2 12 t && t.events == [.pin 1 0x00]) = true := by decide
/-- M6 -/
theorem test_movADir_beyond_ram :
    answers (step { (boot [0xE5, 0x70]).setAcc 0x33 with variant := ⟨12, 6⟩ }) (shows 0 0 2 12) = true := by decide
/-- M8 -/
theorem test_movDirA_psw : answers (step ((boot [0xF5, 0xD0]).setAcc 0x99)) (shows 0x99 0x98 2 12) = true := by decide
/-- M9 -/
theorem test_movDirA_port :
    answers (step ((boot [0xF5, 0xB0]).setAcc 0x0F))
      (fun t => t.sfrAt 0xB0 == 0x0F && t.events == [.drive 3 0x0F]) = true := by decide
/-- M10 -/
theorem test_movARn_bank_1 :
    answers (step (((boot [0xEA]).setPsw 0x08).setIram 0x0A 0x77)) (shows 0x77 0x08 1 12) = true := by decide
/-- M11 -/
theorem test_movRnA_bank_2 :
    answers (step (((boot [0xFF]).setPsw 0x10).setAcc 0x42)) (fun t => t.iram == [(0x17, 0x42)]) = true := by decide
/-- M13: an indirect address 0x90 is neither RAM nor the port -/
theorem test_movAInd_beyond_ram :
    answers (step (((boot [0xE7]).setAcc 0x55).setIram 0x01 0x90))
      (fun t => shows 0 0 1 12 t && t.events == []) = true := by decide
/-- M14 -/
theorem test_movAInd_upper_ram :
    answers (step { (((boot [0xE7]).setAcc 0x55).setIram 0x01 0xE0).setIram 0xE0 0x3C with variant := ⟨12, 8⟩ })
      (shows 0x3C 0 1 12) = true := by decide
/-- M15 -/
theorem test_movIndA :
    answers (step ((((boot [0xF6]).setPsw 0x08).setAcc 0xA5).setIram 0x08 0x40))
      (fun t => t.iram == [(0x08, 0x40), (0x40, 0xA5)]) = true := by decide
/-- M16: the write is ignored and PSW stays -/
theorem test_movIndA_beyond_ram :
    answers (step (((boot [0xF7]).setAcc 0xA5).setIram 0x01 0xD0))
      (fun t => shows 0xA5 0 1 12 t && t.iram == [(0x01, 0xD0)]) = true := by decide
/-- B5: P cannot be set -/
theorem test_setb_parity : answers (step (boot [0xD2, 0xD0])) (shows 0 0 2 12) = true := by decide
/-- B13: bit address 0x8F is bit 7 of the byte 8 past the base -/
theorem test_setb_byte_88 : answers (step (boot [0xD2, 0x8F])) (fun t => t.sfrAt 0x88 == 0x80) = true := by decide
/-- B9: the latch is read, not the pins -/
theorem test_clr_port :
    answers (step { boot [0xC2, 0x90] with pins := [0x00] })
      (fun t => t.sfrAt 0x90 == 0xFE && t.events == [.drive 1 0xFE] && t.pins == [0x00] && !t.rmw) = true := by decide
/-- B14 -/
theorem test_clr_ram :
    answers (step ((boot [0xC2, 0x00]).setIram 0x20 0xFF)) (fun t => t.iram == [(0x20, 0xFE)]) = true := by decide
/-- D1 -/
theorem test_djnz_not_taken :
    answers (step ((boot [0xD8, 0xFE]).setIram 0x00 0x01)) (fun t => shows 0 0 2 24 t && t.iram == []) = true := by decide
/-- D5 -/
theorem test_djnz_taken :
    answers (step { ((boot []).setPsw 0xC4).setIram 0x01 0x80 with pc := 0x200, prog := [(0x200, 0xD9), (0x201, 0x80)] })
      (fun t => shows 0 0xC4 0x182 24 t && t.iram == [(0x01, 0x7F)]) = true := by decide
/-- U3: the operand byte is not fetched -/
theorem test_unimplemented :
    answers (step (boot [0x24, 0x05]))
      (fun t => t.pc == 1 && t.run == .halted 0x24 0 && t.result == some (.fault (.unimplementedOpcode 0x24 0))) = true := by
  decide
/-- U4 -/
theorem test_halted_again :
    faultsWith (step { State.reset with run := .halted 0xA5 0x123 }) (.unimplementedOpcode 0xA5 0x123) = true := by decide
/-- U5, and reset with nothing listed is the reset state -/
theorem test_reset_after_halt :
    hostReset ⟨12, 7⟩ [] [] { State.reset with run := .halted 0xA5 0x123, pc := 0x124 } = State.reset := by decide
/-- The adder's table: 0F + 01, 80 + FF and 7F + 7F + 1 -/
theorem test_adder :
    addWithCarry 0x0F 0x01 false = ⟨0x10, false, true, false⟩ ∧ addWithCarry 0x80 0xFF false = ⟨0x7F, true, false, true⟩ ∧
      addWithCarry 0x7F 0x7F true = ⟨0xFF, false, true, true⟩ := by decide
theorem test_withFetchWord :
    answers (step (State.reset.withFetchWord 16 0x0574)) (shows 0x05 0 2 12) = true := by decide

/-! ### Witnesses: a concrete case that meets the hypotheses of each statement, at the ends of its ranges -/

theorem witness_DecodeOfEncodeGivesTheInstruction :
    (Instr.movRnImm 7 0xFF).wellFormed = true ∧ (Instr.movAInd 1).wellFormed = true ∧
      (Instr.djnz 0 0x80).wellFormed = true := by decide

theorem witness_EncodeOfDecodeGivesTheBytes :
    decode [0x02, 0xFF, 0x00, 0xAA] = .ok (.ljmp 0xFF00, [0xAA]) ∧ decode [0xFF] = .ok (.movRnA 7, []) := by decide

theorem witness_OtherFirstBytesAreRejectedByName :
    (0x00 : Byte) ∉ firstBytes ∧ (0x77 : Byte) ∉ firstBytes ∧ (0xF4 : Byte) ∉ firstBytes := by decide

theorem witness_FirstByteAloneDecidesKindAndLength :
    decode [0x78, 0x01] = .ok (.movRnImm 0 0x01, []) ∧ decode [0x78, 0x02, 0x03] = .ok (.movRnImm 0 0x02, [0x03]) := by
  decide

theorem witness_StepRunsTheDecodedInstruction :
    (boot [0xE8]).run = .fetching ∧ decode (fetchBytes 3 (boot [0xE8])).1 = .ok (.movARn 0, [0x00, 0x00]) ∧
      ∃ t, exec (.movARn 0) (fetchBytes (Instr.movARn 0).length (boot [0xE8])).2 = .next t :=
  ⟨by decide, by decide, _, rfl⟩

theorem witness_ReservedFirstByteHaltsTheEngine :
    (boot [0x24]).run = .fetching ∧ (fetchByte (boot [0x24])).1 ∉ firstBytes := by decide

/-- A halted state. -/
def stopped : State := { State.reset with run := .halted 0xA5 0x0123 }

theorem witness_HaltedStepAnswersTheRecordedFault : stopped.run = .halted 0xA5 0x0123 := by decide

theorem witness_FetchingStepCompletesExactlyOnInstructions :
    (boot [0xFF]).run = .fetching ∧ (fetchByte (boot [0xFF])).1 ∈ firstBytes ∧
      (boot [0x77]).run = .fetching ∧ (fetchByte (boot [0x77])).1 ∉ firstBytes := by decide

theorem witness_NoStepRefusesOrLeavesTheArrays : ∃ f, step stopped = .fault f := ⟨_, rfl⟩

theorem witness_CompletedStepReturnsClockCycles :
    (∃ t, step (boot [0xDF, 0x00]) = .next t ∧ t.run = .fetching) ∧
      ∃ t, step (boot [0xFF]) = .next t ∧ t.run = .fetching :=
  ⟨⟨_, rfl, by decide⟩, _, rfl, by decide⟩

/-- `MOV A,#0x05` in the last two bytes of the program space. -/
def atEnd : State := { State.reset with pc := 0x0FFE, prog := [(0x0FFE, 0x74), (0x0FFF, 0x05)] }

theorem witness_StraightLineStepAdvancesPcByLength :
    atEnd.run = .fetching ∧ decode (fetchBytes 3 atEnd).1 = .ok (.movAImm 0x05, [0x00]) ∧
      (Instr.movAImm 0x05).isJump = false ∧
      atEnd.nextAddr.toNat + (Instr.movAImm 0x05).length = 2 ^ atEnd.variant.progW.val := by decide

theorem witness_PlacedWordIsFetchedNext :
    (2 ≤ ({ State.reset with variant := ⟨2, 7⟩ } : State).variant.progW.val) ∧
      ({ State.reset with variant := ⟨0, 7⟩ } : State).variant.progW.val = 0 := by decide

theorem reset_inv : Invariant State.reset :=
  ⟨by decide, by decide, by decide, by decide, by decide, by decide, by decide, by decide⟩

theorem witness_ResetMeetsTheInvariant :
    Memory.wf [(0x00, 0x12), (0xFF, 0x34)] ∧ Memory.wf [(0x7F, 0x01)] ∧ Memory.wf [(0xFFFF, 0x02)] ∧
      Memory.within [(0xFFFF, 0x02)] 0x10000 := by decide

theorem witness_EveryStepKeepsTheInvariant :
    Invariant (boot [0x75, 0x20, 0x01]) ∧ (∃ t, step (boot [0x75, 0x20, 0x01]) = .next t ∧ t.run = .fetching) ∧
      Invariant (boot [0xA5]) ∧ ∃ t, step (boot [0xA5]) = .next t ∧ t.run = .halted 0xA5 0 :=
  ⟨⟨by decide, by decide, by decide, by decide, by decide, by decide, by decide, by decide⟩, ⟨_, rfl, by decide⟩,
    ⟨by decide, by decide, by decide, by decide, by decide, by decide, by decide, by decide⟩, _, rfl, by decide⟩

theorem witness_NoStepWritesProgramVariantOrLowWindow :
    (∃ t, step (boot [0x75, 0x80, 0x01]) = .next t) ∧ (0x7F : Byte) < 0x80 := ⟨⟨_, rfl⟩, by decide⟩

theorem witness_ParityFollowsTheAccumulator :
    (∃ t, step (boot [0x74, 0x01]) = .next t ∧ t.run = .fetching) ∧
      ∃ t, step (boot [0x00]) = .next t ∧ t.run ≠ .fetching :=
  ⟨⟨_, rfl, by decide⟩, _, rfl, by decide⟩

theorem witness_OnlyAddWritesFlagsAsASideEffect :
    (Instr.djnz 0 0).isAdd = false ∧ (Instr.djnz 0 0).namesPsw = false ∧ (Instr.setb 0xCF).namesPsw = false ∧
      (Instr.setb 0xD8).namesPsw = false ∧ (Instr.movDirImm 0xD1 0).namesPsw = false := by decide

theorem witness_StackPointerChangesOnlyByDirectWrite :
    (∀ imm, Instr.movDirImm 0x80 0xFF ≠ .movDirImm 0x81 imm) ∧ Instr.setb 0x81 ≠ .movDirA 0x81 := by
  constructor <;> simp

theorem witness_StepAppendsAtMostOneEvent : ∃ t, step (boot [0xD2, 0x87]) = .next t := ⟨_, rfl⟩

theorem witness_OnlyListedInstructionsTouchThePorts :
    (Instr.addADir 0x80).drivesPort = false ∧ (Instr.addADir 0x80).readsPins = true ∧
      (Instr.clr 0x8F).readsPins = false ∧ (Instr.clr 0x8F).drivesPort = false ∧ (Instr.clr 0x87).drivesPort = true ∧
      (Instr.movADir 0xB1).readsPins = false := by decide

theorem witness_PinsAreUnseenWithoutAPortRead :
    (Instr.clr 0x90).readsPins = false ∧ ∃ t, exec (.clr 0x90) State.reset = .next t := ⟨by decide, _, rfl⟩

/-- Every clause of the routing at the ends of its range, in a 128-byte and in a 256-byte internal RAM. -/
theorem witness_UnifiedPathRoutesByAddress :
    (0x7F : Word).toNat < State.reset.variant.ramSize ∧ State.reset.variant.ramSize ≤ (0x80 : Word).toNat ∧
      State.reset.variant.ramSize ≤ (0xFF : Word).toNat ∧ (0xFF : Word).toNat < 0x100 ∧
      0x100 ≤ (0x100 : Word).toNat ∧ (0x1FF : Word).toNat < 0x200 ∧ 0x200 ≤ (0x200 : Word).toNat ∧
      (0xFF : Word).toNat < (⟨12, 8⟩ : Variant).ramSize := by decide

theorem witness_DirectAddressesSplitAt80 :
    ((0x7F : Byte).toNat < 0x80 ∧ (0x7F : Byte).toNat < State.reset.variant.ramSize) ∧
      ((0x40 : Byte).toNat < 0x80 ∧ (⟨12, 6⟩ : Variant).ramSize ≤ (0x40 : Byte).toNat) ∧ 0x80 ≤ (0x80 : Byte).toNat := by
  decide

theorem witness_IndirectAddressesReachRamOnly :
    (0x7F : Byte).toNat < State.reset.variant.ramSize ∧ State.reset.variant.ramSize ≤ (0x80 : Byte).toNat := by decide

theorem witness_PortReadsAreLatchAndPins :
    State.reset.rmw = false ∧ (State.reset.setRmw true).rmw = true ∧ isPortByte 0x81 = false ∧
      (State.reset.ports = .attached ∧ ({ State.reset with pins := [0x0F, 0x00] } : State).pins = 0x0F :: [0x00]) ∧
      ({ State.reset with ports := .unbound } : State).ports = .unbound := by decide

theorem witness_SfrWritesStoreAndDrivePorts :
    (0x7F : Byte).toNat < 0x80 ∧ 0x80 ≤ (0x80 : Byte).toNat ∧ (0x80 : Byte) = portOffset 0 ∧ isPortByte 0x81 = false ∧
      (0x81 : Byte) ≠ 0x80 := by decide

theorem witness_DirectReadAfterWrite :
    DirectExists State.reset.variant 0x7F ∧ isPortByte 0x7F = false ∧ DirectExists State.reset.variant 0x81 ∧
      isPortByte 0x81 = false :=
  ⟨.inr (by decide), by decide, .inl (by decide), by decide⟩

theorem witness_BanksAreSelectedByPswAndIsolated :
    (regAddr (({ State.reset with variant := ⟨12, 5⟩ } : State).setPsw 0xFF) 7).toNat < (⟨12, 5⟩ : Variant).ramSize ∧
      (regAddr (({ State.reset with variant := ⟨12, 3⟩ } : State).setPsw 0xE7) 7).toNat < (⟨12, 3⟩ : Variant).ramSize ∧
      (0xFF : Byte) &&& 0x18 ≠ (0x08 : Byte) &&& 0x18 ∧ (0xE7 : Byte) &&& 0x18 ≠ (0x08 : Byte) &&& 0x18 := by decide

theorem witness_BitAddressesMapToBytes : (0x7F : Byte).toNat < 0x80 ∧ 0x80 ≤ (0x80 : Byte).toNat := by decide

theorem witness_ByteDotBitNamesTheBitAddress : bitAddressOf 0x2F 7 = some 0x7F ∧ bitByteAddr 0x80 = 0x80 ∧ bitPos 0x80 = 0 := by
  decide

theorem witness_BitReadAfterBitWrite :
    DirectExists State.reset.variant (bitByteAddr 0x7F) ∧ isPortByte (bitByteAddr 0x7F) = false :=
  ⟨.inr (by decide), by decide⟩

theorem witness_DjnzDecrementsAndBranches :
    (regAddr State.reset 7).toNat < State.reset.variant.ramSize ∧
      (⟨12, 2⟩ : Variant).ramSize ≤ (regAddr { State.reset with variant := ⟨12, 2⟩ } 4).toNat := by decide

theorem witness_AssembledOffsetReachesItsTarget :
    assembleRel 0x0010 0x0010 = some 0xFE ∧ (State.reset.setPc 0x0012).pc = 0x0010 + 2 ∧
      assembleRel 0x0100 0x0181 = some 0x7F ∧ assembleRel 0x0100 0x0182 = none := by decide

theorem witness_ImmediateLoadOfTheAccumulatorStep :
    atEnd.run = .fetching ∧ atEnd.prog.read atEnd.nextAddr.toNat = 0x74 ∧
      atEnd.prog.read (fetchAddr atEnd.variant (atEnd.nextAddr + 1)).toNat = 0x05 := by decide

theorem witness_LoadsWriteOnlyTheAccumulator :
    (∃ n, Instr.movARn 7 = .movARn n ∧ (0x00 : Byte) = regRead State.reset n) ∧
      ∃ p, Instr.movAInd 1 = .movAInd p ∧
        (0x00 : Byte) = if (regRead State.reset p).toNat < State.reset.variant.ramSize
          then State.reset.iramAt (regRead State.reset p).toNat else 0x00 :=
  ⟨⟨7, rfl, by decide⟩, 1, rfl, by decide⟩

theorem witness_MovADirectLoadsTheAccumulator :
    ((0xB0 : Byte) = portOffset 3 ∧ State.reset.rmw = false) ∧ isPortByte 0xB1 = false := by decide

theorem witness_AddDirectAddsToTheAccumulator :
    ((0x80 : Byte) = portOffset 0 ∧ State.reset.rmw = false) ∧ isPortByte 0xD0 = false := by decide

theorem witness_StoresToADirectAddress :
    (Instr.movDirA 0x7F = .movDirA 0x7F ∧ State.reset.acc = State.reset.acc) ∧
      DirectExists State.reset.variant 0x7F ∧ ¬ DirectExists (⟨12, 5⟩ : Variant) 0x20 :=
  ⟨⟨rfl, rfl⟩, .inr (by decide), fun h => h.elim (by decide) (by decide)⟩

theorem witness_StoresToARegister :
    (Instr.movRnA 7 = .movRnA 7 ∧ State.reset.acc = State.reset.acc) ∧
      (regAddr State.reset 7).toNat < State.reset.variant.ramSize ∧
      (⟨12, 0⟩ : Variant).ramSize ≤ (regAddr { State.reset with variant := ⟨12, 0⟩ } 1).toNat := by decide

/-- R1 points to 0x80, one past a 128-byte internal RAM. -/
def pointing : State := State.reset.setIram 0x01 0x80

theorem witness_StoreThroughAPointerReachesRamOnly :
    pointing.variant.ramSize ≤ (regRead pointing 1).toNat ∧ (regRead pointing 0).toNat < pointing.variant.ramSize ∧
      regRead pointing 1 ≠ regAddr pointing 1 := by decide

theorem witness_BitInstructionsWriteOneBit :
    (Instr.setb 0x7F = .setb 0x7F ∧ DirectExists State.reset.variant (bitByteAddr 0x7F)) ∧
      ¬ DirectExists (⟨12, 5⟩ : Variant) (bitByteAddr 0x00) ∧ bitByteAddr 0x87 = portOffset 0 :=
  ⟨⟨rfl, .inr (by decide)⟩, fun h => h.elim (by decide) (by decide), by decide⟩

theorem witness_UnboundEnvironmentHaltsTheFirstStep : State.reset.prog = [] := by decide

/-- The reset state of a block to which nothing is attached. -/
def detached : State := exchangeBoundary [] .unbound [] State.reset

theorem witness_UnboundEnvironmentReadsZeroAndIgnoresDrives : Unbound detached ∧ detached.rmw = false :=
  ⟨⟨rfl, rfl⟩, rfl⟩

end Sys2Proof.Tests
end

/-! SUPPORT. The statements of 10_state.md: pc of a straight-line step (R11), the stack pointer (R16), registers
as bytes of internal RAM (R20) and the register banks (R21). -/

namespace Sys2Proof.Machine

/-! ### The data space below 0x100 and the window, seen through `State.stored` -/

/-- Below 0x100 the stored byte is the internal RAM byte, or 0x00 beyond 2^DATA_W. -/
theorem stored_below (s : State) {u : Word} (h : u.toNat < 0x100) :
    s.stored u = if u.toNat < s.variant.ramSize then s.iramAt u.toNat else 0x00 := by
  by_cases hr : u.toNat < s.variant.ramSize
  · simp [State.stored, route_ram hr, hr]
  · simp [State.stored, route_nothing (Nat.le_of_not_lt hr) (.inl h), hr]

/-- A write below 0x100 reaches internal RAM or nothing. -/
theorem writeByte_below (s : State) {u : Word} (v : Byte) (h : u.toNat < 0x100) :
    writeByte s u v = if u.toNat < s.variant.ramSize then s.setIram u.toNat v else s := by
  by_cases hr : u.toNat < s.variant.ramSize
  · simp [writeByte, route_ram hr, hr]
  · simp [writeByte, route_nothing (Nat.le_of_not_lt hr) (.inl h), hr]

theorem stored_directAddr_high (s : State) {d : Byte} (h : 0x80 ≤ d) : s.stored (directAddr d) = s.sfrAt d := by
  rw [State.stored, route_direct_high _ h]

theorem sp_eq_stored (s : State) : s.sp = s.stored (directAddr spOffset) :=
  (stored_directAddr_high s (by decide)).symm

theorem readDirect_high (s : State) {d : Byte} (h : 0x80 ≤ d) : readDirect s d = sfrRead s d := by
  rw [readDirect, readByte, route_direct_high _ h]

theorem writeDirect_high (s : State) {d : Byte} (v : Byte) (h : 0x80 ≤ d) : writeDirect s d v = sfrWrite s d v := by
  rw [writeDirect, writeByte, route_direct_high _ h]

/-! ### What reads and writes of the data space leave unchanged -/

@[simp] theorem readByte_pc (s : State) (u : Word) : (readByte s u).2.pc = s.pc := by
  rcases readByte_state s u with h | ⟨p, -, h⟩ <;> simp [h]

@[simp] theorem readByte_sfr (s : State) (u : Word) : (readByte s u).2.sfr = s.sfr := by
  rcases readByte_state s u with h | ⟨p, -, h⟩ <;> simp [h]

@[simp] theorem writeByte_pc (s : State) (u : Word) (v : Byte) : (writeByte s u v).pc = s.pc := by
  rcases writeByte_cases s u v with h | ⟨-, h⟩ | ⟨o, -, -, ⟨-, h⟩ | ⟨p, -, h⟩⟩ <;> simp [h]

@[simp] theorem writeByte_variant (s : State) (u : Word) (v : Byte) : (writeByte s u v).variant = s.variant := by
  rcases writeByte_cases s u v with h | ⟨-, h⟩ | ⟨o, -, -, ⟨-, h⟩ | ⟨p, -, h⟩⟩ <;> simp [h]

@[simp] theorem readDirect_pc (s : State) (d : Byte) : (readDirect s d).2.pc = s.pc := readByte_pc s _
@[simp] theorem readDirect_sfr (s : State) (d : Byte) : (readDirect s d).2.sfr = s.sfr := readByte_sfr s _
@[simp] theorem readIndirect_pc (s : State) (a : Byte) : (readIndirect s a).2.pc = s.pc := readByte_pc s _
@[simp] theorem readIndirect_sfr (s : State) (a : Byte) : (readIndirect s a).2.sfr = s.sfr := readByte_sfr s _
@[simp] theorem writeDirect_pc (s : State) (d v : Byte) : (writeDirect s d v).pc = s.pc := writeByte_pc s _ v
@[simp] theorem writeIndirect_pc (s : State) (a v : Byte) : (writeIndirect s a v).pc = s.pc := writeByte_pc s _ v
@[simp] theorem regWrite_pc (s : State) (n v : Byte) : (regWrite s n v).pc = s.pc := writeByte_pc s _ v
@[simp] theorem regWrite_variant (s : State) (n v : Byte) : (regWrite s n v).variant = s.variant :=
  writeByte_variant s _ v
@[simp] theorem writeBit_pc (s : State) (b : Byte) (x : Bool) : (writeBit s b x).pc = s.pc := by simp [writeBit]

/-- A write below 0x100 never reaches the window. -/
theorem writeByte_below_sfr (s : State) {u : Word} (v : Byte) (h : u.toNat < 0x100) :
    (writeByte s u v).sfr = s.sfr := by
  rw [writeByte_below s v h]
  split <;> simp

theorem regUnified_lt (s : State) (n : Byte) : (regUnified s n).toNat < 0x100 :=
  regUnified_toNat s n ▸ (regAddr s n).isLt

@[simp] theorem regWrite_sfr (s : State) (n v : Byte) : (regWrite s n v).sfr = s.sfr :=
  writeByte_below_sfr s v (regUnified_lt s n)

@[simp] theorem writeIndirect_sfr (s : State) (a v : Byte) : (writeIndirect s a v).sfr = s.sfr :=
  writeByte_below_sfr s v (indirectAddr_toNat a ▸ a.isLt)

theorem sfrAt_congr {s t : State} (h : t.sfr = s.sfr) (o : Byte) : t.sfrAt o = s.sfrAt o := by
  rw [State.sfrAt, State.sfrAt, h]

/-! ### Straight-line instructions and pc (R11) -/

/-- An instruction that is no jump completes and leaves pc where the fetches left it. -/
theorem exec_pc_of_not_jump (i : Instr) (s : State) (h : i.isJump = false) :
    ∃ t, exec i s = .next t ∧ t.pc = s.pc := by
  cases i with
  | ljmp | sjmp | djnz => cases h
  | movAImm | movARn => exact ⟨_, rfl, rfl⟩
  | movDirImm | movDirA => exact ⟨_, rfl, writeDirect_pc ..⟩
  | movRnImm | movRnA => exact ⟨_, rfl, regWrite_pc ..⟩
  | addADir | movADir => exact ⟨_, rfl, readDirect_pc ..⟩
  | movAInd => exact ⟨_, rfl, readIndirect_pc ..⟩
  | movIndA => exact ⟨_, rfl, writeIndirect_pc ..⟩
  | setb | clr => exact ⟨_, rfl, writeBit_pc ..⟩

/-! ### A step and the bytes it fetches (30_encoding.md R80, R87, R88) -/

/-- What a successful decode says: its first byte selects a row, and the bytes after it fill the row's format. -/
theorem decode_cons_eq_ok {op : Byte} {bs rest : List Byte} {i : Instr} (h : decode (op :: bs) = .ok (i, rest)) :
    ∃ r, lookupOpcode op = some r ∧ formatOperands r.format ≤ bs.length ∧ i = buildFrom r op bs := by
  simp only [decode] at h
  split at h
  · cases h
  · next r hr =>
    split at h
    · cases h
    · next hlen => cases h; exact ⟨r, hr, Nat.le_of_not_lt hlen, rfl⟩

/-- The format of a row of the opcode map gives the length of its instruction. -/
theorem length_buildFrom {r : OpcodeRow} (hr : r ∈ opcodeMap) (op : Byte) (bs : List Byte) :
    (buildFrom r op bs).length = formatOperands r.format + 1 := by
  revert r
  simp [opcodeMap, buildFrom, formatOperands, Instr.length]

/-- A row of the opcode map looks at the operand bytes of its format alone. -/
theorem buildFrom_take {r : OpcodeRow} (hr : r ∈ opcodeMap) (op : Byte) (bs : List Byte) :
    buildFrom r op (bs.take (formatOperands r.format)) = buildFrom r op bs := by
  revert r
  simp [opcodeMap, buildFrom, formatOperands, List.getD_eq_getElem?_getD, List.getElem?_take]

theorem fetchBytes_length (k : Nat) (s : State) : (fetchBytes k s).1.length = k := by
  induction k generalizing s with
  | zero => rfl
  | succ k ih => simp [fetchBytes, ih]

/-- Fewer fetches give the first of the bytes that more fetches give. -/
theorem take_fetchBytes {k m : Nat} (h : k ≤ m) (s : State) : (fetchBytes m s).1.take k = (fetchBytes k s).1 := by
  induction k generalizing m s with
  | zero => rfl
  | succ k ih =>
    obtain ⟨m, rfl⟩ : ∃ m', m = m' + 1 := ⟨m - 1, by omega⟩
    simp [fetchBytes, ih (Nat.le_of_succ_le_succ h)]

/-- The front of a step finds the instruction that the bytes at pc decode to, and fetches its bytes alone. -/
theorem fetchInstr_of_decode {s : State} {i : Instr} {rest : List Byte}
    (h : decode (fetchBytes 3 s).1 = .ok (i, rest)) : fetchInstr s = .instr i (fetchBytes i.length s).2 := by
  obtain ⟨r, hr, hlen, rfl⟩ := decode_cons_eq_ok (bs := (fetchBytes 2 (fetchByte s).2).1) h
  have hmem : r ∈ opcodeMap := List.mem_of_find?_eq_some hr
  rw [fetchBytes_length] at hlen
  rw [length_buildFrom hmem, ← buildFrom_take hmem, take_fetchBytes hlen]
  simp only [fetchInstr, hr, fetchBytes]

/-- A step of a fetching engine executes the instruction that the bytes at pc decode to. -/
theorem step_of_decode {s : State} {i : Instr} {rest : List Byte} (hrun : s.run = .fetching)
    (h : decode (fetchBytes 3 s).1 = .ok (i, rest)) : step s = finish i (exec i (fetchBytes i.length s).2) := by
  simp only [step, hrun, fetchInstr_of_decode h]

/-- Masking leaves an address inside the program space as it is. -/
theorem fetchAddr_of_lt {v : Variant} {pc : Word} (h : v.progW.val = 0 ∨ pc.toNat < 2 ^ v.progW.val) :
    fetchAddr v pc = pc := by
  rcases h with h | h
  · simp [fetchAddr, h]
  · unfold fetchAddr
    split
    · rfl
    · have hw : 2 ^ v.progW.val ≤ 2 ^ 16 := Nat.pow_le_pow_right (by decide) (by omega)
      apply BitVec.eq_of_toNat_eq
      rw [BitVec.toNat_and, BitVec.toNat_ofNat, Nat.mod_eq_of_lt (by omega), Nat.and_two_pow_sub_one_eq_mod,
        Nat.mod_eq_of_lt h]

/-- Fetches that stay inside the program space leave pc past their bytes. -/
theorem fetchBytes_pc {k : Nat} {s : State}
    (h : s.variant.progW.val = 0 ∨ s.nextAddr.toNat + (k + 1) ≤ 2 ^ s.variant.progW.val) :
    (fetchBytes (k + 1) s).2.pc = s.nextAddr + BitVec.ofNat 16 (k + 1) := by
  induction k generalizing s with
  | zero => rfl
  | succ k ih =>
    have hw : 2 ^ s.variant.progW.val ≤ 2 ^ 16 := Nat.pow_le_pow_right (by decide) (by omega)
    have hlt : s.variant.progW.val = 0 ∨ (s.nextAddr + 1).toNat + (k + 1) ≤ 2 ^ s.variant.progW.val := by
      refine h.imp_right fun h => ?_
      rw [BitVec.toNat_add_of_lt (by simp; omega)]
      simp; omega
    have hmask : fetchAddr s.variant (s.nextAddr + 1) = s.nextAddr + 1 :=
      fetchAddr_of_lt (hlt.imp_right fun h => by omega)
    have hnext : (fetchByte s).2.nextAddr = s.nextAddr + 1 := hmask
    calc (fetchBytes (k + 1 + 1) s).2.pc = (fetchBytes (k + 1) (fetchByte s).2).2.pc := rfl
      _ = s.nextAddr + 1 + BitVec.ofNat 16 (k + 1) := by rw [ih (hnext ▸ hlt), hnext]
      _ = s.nextAddr + BitVec.ofNat 16 (k + 1 + 1) := by
        rw [BitVec.ofNat_add (k + 1) 1, BitVec.add_comm (BitVec.ofNat 16 (k + 1)), ← BitVec.add_assoc]; rfl

theorem instr_length_ne_zero (i : Instr) : i.length ≠ 0 := by
  cases i <;> exact Nat.succ_ne_zero _

/-- Settles O14: the fetches leave pc past the instruction's bytes, and an instruction that is no jump keeps it. -/
theorem straightLineStepAdvancesPcByLength : Obligations.StraightLineStepAdvancesPcByLength := by
  intro s i rest hrun hdec hjump hfit
  obtain ⟨t, ht, hpc⟩ := exec_pc_of_not_jump i (fetchBytes i.length s).2 hjump
  refine ⟨completeStep i t, by rw [step_of_decode hrun hdec, ht]; rfl, ?_⟩
  obtain ⟨k, hk⟩ : ∃ k, i.length = k + 1 := Nat.exists_eq_succ_of_ne_zero (instr_length_ne_zero i)
  rw [hk] at hpc hfit ⊢
  rw [completeStep_pc, hpc, fetchBytes_pc hfit]

/-! ### The stack pointer (R16) -/

theorem sp_of_sfr {s t : State} (h : t.sfr = s.sfr) : t.sp = s.sp := sfrAt_congr h spOffset

@[simp] theorem sp_setAcc (s : State) (v : Byte) : (s.setAcc v).sp = s.sp := by
  simp [State.sp, State.setAcc, spOffset, accOffset]

@[simp] theorem sp_setArithFlags (s : State) (cy ac ov : Bool) : (setArithFlags s cy ac ov).sp = s.sp := by
  simp [State.sp, setArithFlags, State.setPsw, spOffset, pswOffset]

/-- The low byte of a direct address's unified address is the direct address. -/
theorem directAddr_setWidth : ∀ d : Byte, (directAddr d).setWidth 8 = d := by decide

theorem directAddr_injective {d e : Byte} (h : directAddr d = directAddr e) : d = e := by
  rw [← directAddr_setWidth d, h, directAddr_setWidth e]

theorem sp_writeDirect (s : State) {d : Byte} (v : Byte) (h : d ≠ 0x81) : (writeDirect s d v).sp = s.sp := by
  rw [sp_eq_stored, sp_eq_stored, writeDirect, stored_writeByte_ne s v]
  exact fun he => h (directAddr_injective he).symm

/-- Every byte with bit addresses in the window is a multiple of 8, so none is the stack pointer. -/
theorem bitByteAddr_ne_sp : ∀ b : Byte, bitByteAddr b ≠ 0x81 := by decide

theorem sp_writeBit (s : State) (b : Byte) (x : Bool) : (writeBit s b x).sp = s.sp := by
  have hw := sp_writeDirect (readDirect (s.setRmw true) (bitByteAddr b)).2
    (withBit (readDirect (s.setRmw true) (bitByteAddr b)).1 (bitPos b) x) (bitByteAddr_ne_sp b)
  exact hw.trans (sp_of_sfr (by simp))

/-- Settles O22: only the two direct stores can name the stack pointer's address. -/
theorem stackPointerChangesOnlyByDirectWrite : Obligations.StackPointerChangesOnlyByDirectWrite := by
  intro i s himm hacc
  cases i with
  | ljmp | sjmp => exact ⟨_, rfl, rfl⟩
  | djnz n rel =>
    refine ⟨_, rfl, sp_of_sfr ?_⟩
    split <;> simp
  | movAImm | movARn => exact ⟨_, rfl, sp_setAcc ..⟩
  | movADir d => exact ⟨_, rfl, (sp_setAcc ..).trans (sp_of_sfr (readDirect_sfr s d))⟩
  | movAInd p => exact ⟨_, rfl, (sp_setAcc ..).trans (sp_of_sfr (readIndirect_sfr s _))⟩
  | addADir d =>
    exact ⟨_, rfl, (sp_setArithFlags ..).trans ((sp_setAcc ..).trans (sp_of_sfr (readDirect_sfr s d)))⟩
  | movDirImm d imm =>
    have hd : d ≠ 0x81 := fun h => himm imm (h ▸ rfl)
    exact ⟨_, rfl, sp_writeDirect s imm hd⟩
  | movDirA d =>
    have hd : d ≠ 0x81 := fun h => hacc (h ▸ rfl)
    exact ⟨_, rfl, sp_writeDirect s s.acc hd⟩
  | movRnImm | movRnA => exact ⟨_, rfl, sp_of_sfr (regWrite_sfr ..)⟩
  | movIndA => exact ⟨_, rfl, sp_of_sfr (writeIndirect_sfr ..)⟩
  | setb b => exact ⟨_, rfl, sp_writeBit s b true⟩
  | clr b => exact ⟨_, rfl, sp_writeBit s b false⟩

/-! ### Registers are bytes of internal RAM (R20) -/

/-- The direct address of a register's byte is below 0x80, so it leads where the register does. -/
theorem directAddr_regAddr (s : State) (n : Byte) : directAddr (regAddr s n) = regUnified s n :=
  if_pos (BitVec.lt_def.2 ((regAddr_lt s n).trans (by decide)))

/-- Settles O32: the direct and the register-indirect address of a register's byte are its unified address, for
the register-indirect one by definition. -/
theorem registersAreRamBytes : Obligations.RegistersAreRamBytes := by
  intro s n v
  refine ⟨regAddr_lt s n, ?_, regRead_eq s n, ?_, rfl⟩
  · rw [readDirect, directAddr_regAddr, regRead_eq]
  · rw [writeDirect, directAddr_regAddr, regWrite]

/-! ### Register banks (R21) -/

theorem and_0x18_toNat : ∀ p : Byte, (p &&& 0x18).toNat = 8 * (p.toNat / 8 % 4) := by decide

theorem and_0x7_toNat (n : Byte) : (n &&& 0x7).toNat = n.toNat % 8 :=
  Nat.and_two_pow_sub_one_eq_mod n.toNat 3

/-- The bank table. -/
theorem regAddr_toNat (s : State) (n : Byte) :
    (regAddr s n).toNat = 8 * (s.psw.toNat / 8 % 4) + n.toNat % 8 := by
  rw [regAddr, BitVec.toNat_or, and_0x18_toNat, and_0x7_toNat]
  exact (Nat.two_pow_add_eq_or_of_lt (i := 3) (Nat.mod_lt _ (by decide)) _).symm

/-- A register's address depends on the state through PSW alone. -/
theorem regUnified_congr {s t : State} (h : t.psw = s.psw) (n : Byte) : regUnified t n = regUnified s n := by
  rw [regUnified, regUnified, regAddr, regAddr, h]

/-- Registers of different banks have different bytes. -/
theorem regUnified_ne_of_bank {s t : State} (h : s.psw &&& 0x18 ≠ t.psw &&& 0x18) (n m : Byte) :
    regUnified s n ≠ regUnified t m := by
  intro he
  apply h
  have hsame := congrArg BitVec.toNat he
  rw [regUnified_toNat, regUnified_toNat, regAddr_toNat, regAddr_toNat] at hsame
  apply BitVec.eq_of_toNat_eq
  rw [and_0x18_toNat, and_0x18_toNat]
  omega

theorem regRead_eq_stored (s : State) (n : Byte) : regRead s n = s.stored (regUnified s n) := by
  rw [regRead, readByte_below s (regUnified_lt s n), stored_below s (regUnified_lt s n)]

@[simp] theorem psw_regWrite (s : State) (n v : Byte) : (regWrite s n v).psw = s.psw :=
  sfrAt_congr (regWrite_sfr s n v) pswOffset

/-- Where the register's byte exists, a register write stores it. -/
theorem stored_regWrite_same (s : State) {n : Byte} (v : Byte) (h : (regAddr s n).toNat < s.variant.ramSize) :
    (regWrite s n v).stored (regUnified s n) = v := by
  have hlt := regUnified_lt s n
  rw [← regUnified_toNat] at h
  rw [stored_below _ hlt, regWrite_variant, if_pos h, regWrite, writeByte_below s v hlt, if_pos h, iramAt_setIram,
    if_pos rfl]

theorem stored_setPsw_below (s : State) (p : Byte) {u : Word} (h : u.toNat < 0x100) :
    (s.setPsw p).stored u = s.stored u := by
  rw [stored_below _ h, stored_below _ h]; rfl

/-- What is written to a register stays there while a register of another bank is written. -/
theorem regRead_after_other_bank (s : State) {p q n : Byte} (m v w : Byte)
    (hram : (regAddr (s.setPsw p) n).toNat < s.variant.ramSize) (hbank : p &&& 0x18 ≠ q &&& 0x18) :
    regRead ((regWrite ((regWrite (s.setPsw p) n v).setPsw q) m w).setPsw p) n = v := by
  have hlt := regUnified_lt (s.setPsw p) n
  have hother : regUnified (s.setPsw p) n ≠ regUnified ((regWrite (s.setPsw p) n v).setPsw q) m :=
    regUnified_ne_of_bank (by simpa using hbank) n m
  rw [regRead_eq_stored, regUnified_congr (s := s.setPsw p) (by simp), stored_setPsw_below _ _ hlt, regWrite,
    stored_writeByte_ne _ _ hother, stored_setPsw_below _ _ hlt, stored_regWrite_same _ _ hram]

theorem psw_writeDirect_psw (s : State) (v : Byte) : (writeDirect s pswOffset v).psw = v := by
  rw [writeDirect_high s v (by decide), show sfrWrite s pswOffset v = s.setPsw v from rfl, psw_setPsw]

/-- A bit write of a PSW bit changes that bit of the status word. -/
theorem psw_writeBit (s : State) {b : Byte} (x : Bool) (h : bitByteAddr b = pswOffset) :
    (writeBit s b x).psw = withBit s.psw (bitPos b) x := by
  have hread : readDirect (s.setRmw true) pswOffset = (s.psw, s.setRmw true) :=
    readDirect_high _ (by decide)
  have hset (t : State) (y : Bool) : (t.setRmw y).psw = t.psw := rfl
  simp only [writeBit, h, hread, hset, psw_writeDirect_psw]

theorem getLsbD_withBit (v : Byte) (x : Bool) {k j : Nat} (hj : j < 8) :
    (withBit v k x).getLsbD j = if j = k then x else v.getLsbD j := by
  have hbit : (1#8 <<< k).getLsbD j = decide (j = k) := by
    rw [← BitVec.twoPow_eq, BitVec.getLsbD_twoPow]
    grind
  cases x with
  | true => simp only [withBit, if_true, BitVec.getLsbD_or, hbit]; grind
  | false => simp only [withBit, Bool.false_eq_true, if_false, BitVec.getLsbD_and, BitVec.getLsbD_not, hbit]; grind

/-- Bits 3 and 4 of a register's address are those of PSW. -/
theorem getLsbD_regAddr (s : State) (n : Byte) :
    (regAddr s n).getLsbD 3 = s.psw.getLsbD 3 ∧ (regAddr s n).getLsbD 4 = s.psw.getLsbD 4 := by
  simp [regAddr]

/-- Settles O33: the bank table, isolation of banks, and the switch by a direct or a bit write of PSW. -/
theorem banksAreSelectedByPswAndIsolated : Obligations.BanksAreSelectedByPswAndIsolated := by
  refine ⟨regAddr_toNat, fun s p q n m v w => regRead_after_other_bank s m v w, fun s n v => ?_, fun s n x => ?_⟩
  · rw [regAddr_toNat, show (0xD0 : Byte) = pswOffset from rfl, psw_writeDirect_psw]
  · have h3 : (writeBit s 0xD3 x).psw = withBit s.psw 3 x := psw_writeBit s x (by decide)
    have h4 : (writeBit s 0xD4 x).psw = withBit s.psw 4 x := psw_writeBit s x (by decide)
    simp (disch := decide) only [getLsbD_regAddr, h3, h4, getLsbD_withBit]
    simp

end Sys2Proof.Machine

/-! SUPPORT. The statements of 20_memory.md on the access paths: routing of unified addresses (R41, R42), direct
and register-indirect addresses (R45 to R48), the bit-address map (R51, R52), and what no step changes (R67). -/

namespace Sys2Proof.Machine

/-! ### The control part and the SFR offsets below 0x80, which every operation of an instruction keeps -/

/-- The control part is the same, and so is every byte of the SFR window below offset 0x80 (10_state.md R13). -/
structure SameFixedPart (s t : State) : Prop extends SameControl s t where
  lowWindow : ∀ o : Byte, o < 0x80 → t.sfrAt o = s.sfrAt o

theorem SameFixedPart.refl (s : State) : SameFixedPart s s := ⟨⟨rfl, rfl, rfl, rfl, rfl⟩, fun _ _ => rfl⟩

theorem SameFixedPart.trans {s t u : State} (h : SameFixedPart s t) (h' : SameFixedPart t u) :
    SameFixedPart s u where
  variant := h'.variant.trans h.variant
  run := h'.run.trans h.run
  prog := h'.prog.trans h.prog
  ports := h'.ports.trans h.ports
  result := h'.result.trans h.result
  lowWindow o ho := (h'.lowWindow o ho).trans (h.lowWindow o ho)

theorem setPc_sameFixedPart (s : State) (a : Word) : SameFixedPart s (s.setPc a) :=
  ⟨⟨rfl, rfl, rfl, rfl, rfl⟩, fun _ _ => rfl⟩

theorem setRmw_sameFixedPart (s : State) (x : Bool) : SameFixedPart s (s.setRmw x) :=
  ⟨⟨rfl, rfl, rfl, rfl, rfl⟩, fun _ _ => rfl⟩

theorem setIram_sameFixedPart (s : State) (a : Nat) (v : Byte) : SameFixedPart s (s.setIram a v) :=
  ⟨⟨rfl, rfl, rfl, rfl, rfl⟩, fun _ _ => rfl⟩

theorem drawPin_sameFixedPart (s : State) (p : Fin 4) : SameFixedPart s (drawPin s p) :=
  ⟨⟨rfl, rfl, rfl, rfl, rfl⟩, fun _ _ => rfl⟩

theorem portDrive_sameFixedPart (s : State) (p : Fin 4) (v : Byte) : SameFixedPart s (portDrive s p v) :=
  ⟨⟨rfl, rfl, rfl, rfl, rfl⟩, fun _ _ => rfl⟩

theorem setSfr_sameFixedPart (s : State) {o : Byte} (v : Byte) (h : 0x80 ≤ o) : SameFixedPart s (s.setSfr o v) where
  variant := rfl
  run := rfl
  prog := rfl
  ports := rfl
  result := rfl
  lowWindow o' ho' := by
    have hne : o' ≠ o := fun he => BitVec.not_lt.2 h (he ▸ ho')
    rw [sfrAt_setSfr, if_neg hne]

theorem setAcc_sameFixedPart (s : State) (v : Byte) : SameFixedPart s (s.setAcc v) :=
  setSfr_sameFixedPart s v (by decide)

theorem setPsw_sameFixedPart (s : State) (v : Byte) : SameFixedPart s (s.setPsw v) :=
  setSfr_sameFixedPart s v (by decide)

theorem setArithFlags_sameFixedPart (s : State) (cy ac ov : Bool) : SameFixedPart s (setArithFlags s cy ac ov) :=
  setPsw_sameFixedPart s _

theorem recomputeParity_sameFixedPart (s : State) : SameFixedPart s (recomputeParity s) :=
  setPsw_sameFixedPart s _

/-! ### Access paths keep the fixed part -/

theorem readByte_sameFixedPart (s : State) (u : Word) : SameFixedPart s (readByte s u).2 := by
  rcases readByte_state s u with h | ⟨p, -, h⟩ <;> rw [h]
  · exact .refl s
  · exact drawPin_sameFixedPart s p

theorem writeByte_sameFixedPart (s : State) (u : Word) (v : Byte) : SameFixedPart s (writeByte s u v) := by
  rcases writeByte_cases s u v with h | ⟨-, h⟩ | ⟨o, -, h80, ⟨-, h⟩ | ⟨p, -, h⟩⟩ <;> rw [h]
  · exact .refl s
  · exact setIram_sameFixedPart s _ v
  · exact setSfr_sameFixedPart s v h80
  · exact (setSfr_sameFixedPart s v h80).trans (portDrive_sameFixedPart _ p v)

theorem writeBit_sameFixedPart (s : State) (b : Byte) (x : Bool) : SameFixedPart s (writeBit s b x) :=
  (setRmw_sameFixedPart s true).trans <| (readByte_sameFixedPart _ _).trans <|
    (writeByte_sameFixedPart _ _ _).trans (setRmw_sameFixedPart _ false)

/-- Every instruction completes, and keeps the control part and the SFR offsets below 0x80. -/
theorem exec_sameFixedPart (i : Instr) (s : State) : ∃ t, exec i s = .next t ∧ SameFixedPart s t := by
  cases i with
  | ljmp | sjmp => exact ⟨_, rfl, setPc_sameFixedPart s _⟩
  | djnz n rel =>
    have hw := writeByte_sameFixedPart s (regUnified s n) (dec8 (regRead s n))
    refine ⟨_, rfl, ?_⟩
    split
    · exact hw.trans (setPc_sameFixedPart _ _)
    · exact hw
  | movAImm | movARn => exact ⟨_, rfl, setAcc_sameFixedPart s _⟩
  | movADir | movAInd => exact ⟨_, rfl, (readByte_sameFixedPart s _).trans (setAcc_sameFixedPart _ _)⟩
  | addADir =>
    exact ⟨_, rfl, ((readByte_sameFixedPart s _).trans (setAcc_sameFixedPart _ _)).trans
      (setArithFlags_sameFixedPart _ _ _ _)⟩
  | movDirImm | movRnImm | movDirA | movRnA | movIndA => exact ⟨_, rfl, writeByte_sameFixedPart s _ _⟩
  | setb | clr => exact ⟨_, rfl, writeBit_sameFixedPart s _ _⟩

/-! ### The step -/

/-- Fetching an instruction's bytes, or the one byte that is no instruction, moves pc and changes nothing else. -/
theorem fetchInstr_cases (s : State) :
    (∃ op addr a, fetchInstr s = .unimplemented op addr (s.setPc a)) ∨
      ∃ i a, fetchInstr s = .instr i (s.setPc a) := by
  simp only [fetchInstr]
  split
  · exact .inl ⟨_, _, _, rfl⟩
  · rw [fetchBytes_state]; exact .inr ⟨_, _, rfl⟩

/-- `step_cases` with the state after the fetch written out: a next state is the halt, or the completed
instruction, in a state that differs from the first in pc alone. -/
theorem step_eq_next_cases {s t : State} (h : step s = .next t) :
    ∃ a, (∃ op addr, t = haltUnimplemented (s.setPc a) op addr) ∨
      ∃ i u, exec i (s.setPc a) = .next u ∧ t = completeStep i u := by
  obtain ⟨-, ⟨op, addr, u, hf, ht⟩ | ⟨i, u, w, hf, hw, ht⟩⟩ := step_cases h <;>
    rcases fetchInstr_cases s with ⟨op', addr', a, hf'⟩ | ⟨i', a, hf'⟩ <;> rw [hf'] at hf <;> cases hf
  · exact ⟨a, .inl ⟨op, addr, ht⟩⟩
  · exact ⟨a, .inr ⟨i, w, hw, ht⟩⟩

/-- Settles O19: a halt changes the run state and the result alone, and every instruction, the parity recomputation
included, keeps the fixed part. -/
theorem noStepWritesProgramVariantOrLowWindow : Obligations.NoStepWritesProgramVariantOrLowWindow := by
  intro s t h
  obtain ⟨a, ⟨op, addr, rfl⟩ | ⟨i, u, hu, rfl⟩⟩ := step_eq_next_cases h
  · exact ⟨rfl, rfl, rfl, fun _ _ => rfl⟩
  · obtain ⟨w, hw, hsame⟩ := exec_sameFixedPart i (s.setPc a)
    obtain rfl : w = u := Host.Outcome.next.inj (hw.symm.trans hu)
    have hall := ((setPc_sameFixedPart s a).trans hsame).trans (recomputeParity_sameFixedPart w)
    exact ⟨hall.variant, hall.prog, hall.ports, hall.lowWindow⟩

/-! ### Routing of unified addresses (R41, R42) -/

theorem readByte_ram (s : State) {u : Word} (h : u.toNat < s.variant.ramSize) :
    readByte s u = (s.iramAt u.toNat, s) := by
  rw [readByte, route_ram h]

theorem writeByte_ram (s : State) {u : Word} (v : Byte) (h : u.toNat < s.variant.ramSize) :
    writeByte s u v = s.setIram u.toNat v := by
  rw [writeByte, route_ram h]

theorem readByte_nothing (s : State) {u : Word} (h : s.variant.ramSize ≤ u.toNat)
    (h' : u.toNat < 0x100 ∨ 0x200 ≤ u.toNat) : readByte s u = (0x00, s) := by
  rw [readByte, route_nothing h h']

theorem writeByte_nothing (s : State) {u : Word} (v : Byte) (h : s.variant.ramSize ≤ u.toNat)
    (h' : u.toNat < 0x100 ∨ 0x200 ≤ u.toNat) : writeByte s u v = s := by
  rw [writeByte, route_nothing h h']

/-- From 0x100 to 0x1FF a route leads to the window at the address less 0x100. -/
theorem route_window_sub (v : Variant) {u : Word} (h : 0x100 ≤ u.toNat) (h' : u.toNat < 0x200) :
    route v u = .window (BitVec.ofNat 8 (u.toNat - 0x100)) := by
  have hoffset : u.setWidth 8 = BitVec.ofNat 8 (u.toNat - 0x100) := by
    apply BitVec.eq_of_toNat_eq
    rw [BitVec.toNat_setWidth, BitVec.toNat_ofNat]
    omega
  rw [route_window h h', hoffset]

/-- Settles O26: one routing lemma per range. -/
theorem unifiedPathRoutesByAddress : Obligations.UnifiedPathRoutesByAddress := by
  intro s u v
  refine ⟨ramSize_le _, fun h => ⟨readByte_ram s h, writeByte_ram s v h⟩, fun h h' => ?_,
    fun h h' => ⟨readByte_nothing s h h', writeByte_nothing s v h h'⟩⟩
  rw [readByte, writeByte, route_window_sub _ h h']
  exact ⟨rfl, rfl⟩

/-! ### Direct and register-indirect addresses (R45 to R48) -/

/-- Settles O27: a direct address below 0x80 is its own unified address, so it never reaches the window. -/
theorem directAddressesSplitAt80 : Obligations.DirectAddressesSplitAt80 := by
  intro s d v
  have hlow (h : d.toNat < 0x80) : (directAddr d).toNat = d.toNat := directAddr_low (BitVec.lt_def.2 h)
  refine ⟨fun h hram => ?_, fun h hram => ?_, fun h => ⟨readDirect_high s h, writeDirect_high s v h⟩⟩
  · rw [← hlow h] at hram ⊢
    exact ⟨readByte_ram s hram, writeByte_ram s v hram⟩
  · have hbelow : (directAddr d).toNat < 0x100 := hlow h ▸ d.isLt
    rw [← hlow h] at hram
    exact ⟨readByte_nothing s hram (.inl hbelow), writeByte_nothing s v hram (.inl hbelow)⟩

/-- Settles O28: a register-indirect address is its own unified address, always below the window. -/
theorem indirectAddressesReachRamOnly : Obligations.IndirectAddressesReachRamOnly := by
  intro s a v
  have hbelow : (indirectAddr a).toNat < 0x100 := indirectAddr_toNat a ▸ a.isLt
  rw [← indirectAddr_toNat a]
  exact ⟨fun h => ⟨readByte_ram s h, writeByte_ram s v h⟩,
    fun h => ⟨readByte_nothing s h (.inl hbelow), writeByte_nothing s v h (.inl hbelow)⟩, writeIndirect_sfr s a v⟩

/-! ### The bit-address map (R51, R52) -/

/-- The byte number inside its region: bits 6 to 3 of the bit address. -/
theorem bitByteIndex_toNat (b : Byte) : ((b &&& 0x78) >>> 3).toNat = b.toNat / 8 % 16 := by
  rw [BitVec.toNat_ushiftRight, BitVec.toNat_and, Nat.shiftRight_and_distrib, Nat.shiftRight_eq_div_pow]
  exact Nat.and_two_pow_sub_one_eq_mod _ 4

theorem bitByteAddr_low_toNat {b : Byte} (h : b.toNat < 0x80) : (bitByteAddr b).toNat = 0x20 + b.toNat / 8 := by
  have hnot : ¬ (0x80 : Byte) ≤ b := fun h' => absurd (BitVec.le_def.1 h') (Nat.not_le_of_lt h)
  rw [bitByteAddr, if_neg hnot, BitVec.toNat_add, BitVec.toNat_mul, bitByteIndex_toNat]
  simp only [BitVec.reduceToNat]
  omega

theorem bitByteAddr_high_toNat {b : Byte} (h : 0x80 ≤ b.toNat) : (bitByteAddr b).toNat = 8 * (b.toNat / 8) := by
  have hb := b.isLt
  have hge : (0x80 : Byte) ≤ b := BitVec.le_def.2 h
  rw [bitByteAddr, if_pos hge, BitVec.toNat_add, BitVec.toNat_mul, bitByteIndex_toNat]
  simp only [BitVec.reduceToNat]
  omega

theorem and_0xF8_toNat : ∀ b : Byte, (b &&& 0xF8).toNat = 8 * (b.toNat / 8) := by decide

/-- Settles O34: both regions number their bytes by bits 6 to 3 of the bit address. -/
theorem bitAddressesMapToBytes : Obligations.BitAddressesMapToBytes := by
  intro b
  refine ⟨fun h => ?_, fun h => ⟨BitVec.eq_of_toNat_eq ?_, ?_⟩, and_0x7_toNat b⟩
  · rw [bitByteAddr_low_toNat h]; omega
  · rw [bitByteAddr_high_toNat h, and_0xF8_toNat]
  · rw [bitByteAddr_high_toNat h]; omega

end Sys2Proof.Machine

/-! SUPPORT. The statement of 30_encoding.md on what the first byte decides (R80, R87). -/

namespace Sys2Proof.Machine

/-- Where the first byte selects a row and the row's operand bytes are there, decoding takes those and leaves the
rest. -/
theorem decode_cons_of_lookup {op : Byte} {bs : List Byte} {r : OpcodeRow} (hr : lookupOpcode op = some r)
    (hlen : formatOperands r.format ≤ bs.length) :
    decode (op :: bs) = .ok (buildFrom r op bs, bs.drop (formatOperands r.format)) := by
  simp only [decode, hr, if_neg (Nat.not_lt_of_le hlen)]

/-- A row of the opcode map builds instructions of one kind, whatever bytes it is given. -/
theorem mnemonic_buildFrom {r : OpcodeRow} (hr : r ∈ opcodeMap) (op op' : Byte) (bs bs' : List Byte) :
    (buildFrom r op bs).mnemonic = (buildFrom r op' bs').mnemonic := by
  revert r
  simp [opcodeMap, buildFrom, Instr.mnemonic]

/-- A successful decode consumes as many bytes as its instruction is long. -/
theorem length_of_decode {op : Byte} {bs rest : List Byte} {i : Instr} (h : decode (op :: bs) = .ok (i, rest)) :
    bs.length + 1 = i.length + rest.length := by
  obtain ⟨r, hr, hlen, rfl⟩ := decode_cons_eq_ok h
  obtain rfl : bs.drop (formatOperands r.format) = rest := by
    rw [decode_cons_of_lookup hr hlen] at h
    cases h
    rfl
  rw [length_buildFrom (List.mem_of_find?_eq_some hr), List.length_drop]
  omega

/-- Settles O6: two decodes with one first byte select one row of the opcode map, and the row alone gives the
mnemonic and the length. -/
theorem firstByteAloneDecidesKindAndLength : Obligations.FirstByteAloneDecidesKindAndLength := by
  intro op xs ys rx ry i j hi hj
  have hconsumed := length_of_decode hi
  obtain ⟨r, hr, -, rfl⟩ := decode_cons_eq_ok hi
  obtain ⟨r', hr', -, rfl⟩ := decode_cons_eq_ok hj
  obtain rfl : r = r' := Option.some.inj (hr.symm.trans hr')
  have hmem : r ∈ opcodeMap := List.mem_of_find?_eq_some hr
  exact ⟨mnemonic_buildFrom hmem op op xs ys, by rw [length_buildFrom hmem, length_buildFrom hmem], hconsumed⟩

end Sys2Proof.Machine

/-! SUPPORT. The statement of 41_immediate_loads.md on the whole step of `MOV A,#imm` (R110), with the rules for
the accumulator's write and for the end of a step (10_state.md R19). -/

namespace Sys2Proof.Machine

/-! ### Writes of ACC and PSW as writes of the data space -/

theorem setAcc_eq_writeByte (s : State) (v : Byte) : s.setAcc v = writeByte s accUnified v :=
  (writeDirect_high s v (d := accOffset) (by decide)).symm

theorem setPsw_eq_writeByte (s : State) (v : Byte) : s.setPsw v = writeByte s pswUnified v :=
  (writeDirect_high s v (d := pswOffset) (by decide)).symm

theorem stored_setAcc_ne (s : State) {u : Word} (v : Byte) (h : u ≠ accUnified) :
    (s.setAcc v).stored u = s.stored u := by
  rw [setAcc_eq_writeByte, stored_writeByte_ne s v h]

theorem stored_setPsw_ne (s : State) {u : Word} (v : Byte) (h : u ≠ pswUnified) :
    (s.setPsw v).stored u = s.stored u := by
  rw [setPsw_eq_writeByte, stored_writeByte_ne s v h]

/-! ### The end of a step (R19) -/

@[simp] theorem acc_completeStep (i : Instr) (s : State) : (completeStep i s).acc = s.acc := acc_setPsw s _

@[simp] theorem psw_completeStep (i : Instr) (s : State) :
    (completeStep i s).psw = (s.psw &&& 0xFE) ||| flagBit (parity s.acc) 0 := psw_setPsw s _

theorem stored_completeStep_ne (i : Instr) (s : State) {u : Word} (h : u ≠ pswUnified) :
    (completeStep i s).stored u = s.stored u := stored_setPsw_ne s _ h

/-- P is the parity of the accumulator. -/
theorem getLsbD_psw_completeStep_zero (i : Instr) (s : State) :
    (completeStep i s).psw.getLsbD 0 = parity s.acc := by
  simp [flagBit]

/-- The end of a step keeps every bit of PSW but P. -/
theorem getLsbD_psw_completeStep_of_pos (i : Instr) (s : State) {k : Nat} (hk : 0 < k) :
    (completeStep i s).psw.getLsbD k = s.psw.getLsbD k := by
  rw [psw_completeStep]
  by_cases h8 : k < 8
  · interval_cases k <;> simp [flagBit]
  · rw [BitVec.getLsbD_of_ge _ _ (by omega), BitVec.getLsbD_of_ge _ _ (by omega)]

/-! ### The step of `MOV A,#imm` (R110) -/

/-- The bytes 0x74, imm are `MOV A,#imm`, whatever follows. -/
theorem decode_movAImm (imm : Byte) (rest : List Byte) :
    decode (0x74 :: imm :: rest) = .ok (.movAImm imm, rest) := rfl

/-- A step at 0x74 loads the accumulator with the byte at the next fetch address, in the state whose pc is past
both bytes. -/
theorem step_movAImm {s : State} {imm : Byte} (hrun : s.run = .fetching)
    (hop : s.prog.read s.nextAddr.toNat = 0x74)
    (himm : s.prog.read (fetchAddr s.variant (s.nextAddr + 1)).toNat = imm) :
    step s = .next (completeStep (.movAImm imm)
      ((s.setPc (fetchAddr s.variant (s.nextAddr + 1) + 1)).setAcc imm)) := by
  obtain ⟨b, hbytes⟩ : ∃ b, (fetchBytes 3 s).1 = [0x74, imm, b] := by
    rw [← hop, ← himm]
    exact ⟨_, rfl⟩
  have hdec : decode (fetchBytes 3 s).1 = .ok (.movAImm imm, [b]) := by
    rw [hbytes, decode_movAImm]
  rw [step_of_decode hrun hdec]
  rfl

/-- Settles O44: the step is one write of ACC and the parity recomputation, in the state past the two bytes. -/
theorem immediateLoadOfTheAccumulatorStep : Obligations.ImmediateLoadOfTheAccumulatorStep := by
  intro s imm hrun a1 hop himm
  have hacc : ((s.setPc (a1 + 1)).setAcc imm).acc = imm := acc_setAcc _ imm
  have hpsw : ((s.setPc (a1 + 1)).setAcc imm).psw = s.psw := psw_setAcc _ imm
  refine ⟨_, step_movAImm hrun hop himm, ?_, ?_, fun k hk => ?_, rfl, fun u hu => ?_, ⟨rfl, rfl, rfl⟩,
    rfl, rfl, rfl, rfl, hrun, rfl⟩
  · rw [acc_completeStep, hacc]
  · rw [getLsbD_psw_completeStep_zero, hacc]
  · rw [getLsbD_psw_completeStep_of_pos _ _ hk, hpsw]
  · obtain ⟨hua, hup⟩ : u ≠ accUnified ∧ u ≠ pswUnified := by simpa using hu
    calc _ = ((s.setPc (a1 + 1)).setAcc imm).stored u := stored_completeStep_ne _ _ hup
      _ = s.stored u := stored_setAcc_ne _ imm hua

end Sys2Proof.Machine

/-! SUPPORT. The statement of 42_arithmetic.md on the flags `SetArithFlags` stores (R122). -/

namespace Sys2Proof.Machine

/-- A flag at bit `k` of a byte is set there or nowhere. -/
theorem getLsbD_flagBit (x : Bool) {k j : Nat} (hj : j < 8) : (flagBit x k).getLsbD j = (decide (j = k) && x) := by
  rw [flagBit, BitVec.getLsbD_shiftLeft, BitVec.getLsbD_setWidth, BitVec.getLsbD_ofBool]
  grind

theorem psw_setArithFlags (s : State) (cy ac ov : Bool) :
    (setArithFlags s cy ac ov).psw = (s.psw &&& 0x3B) ||| flagBit cy 7 ||| flagBit ac 6 ||| flagBit ov 2 :=
  psw_setPsw s _

/-- A bit of PSW after `SetArithFlags`: the mask 0x3B clears the places of the three flags alone, and each flag
fills its own. -/
theorem getLsbD_psw_setArithFlags (s : State) (cy ac ov : Bool) {k : Nat} (hk : k < 8) :
    (setArithFlags s cy ac ov).psw.getLsbD k =
      if k = 7 then cy else if k = 6 then ac else if k = 2 then ov else s.psw.getLsbD k := by
  have hmask : (0x3B : Byte).getLsbD k = decide (k ≠ 7 ∧ k ≠ 6 ∧ k ≠ 2) := by
    revert k; decide
  rw [psw_setArithFlags]
  simp only [BitVec.getLsbD_or, BitVec.getLsbD_and, hmask, getLsbD_flagBit _ hk]
  grind

/-- The five bits of PSW that hold no arithmetic flag stay. -/
theorem getLsbD_psw_setArithFlags_kept (s : State) (cy ac ov : Bool) :
    ∀ k ∈ [0, 1, 3, 4, 5], (setArithFlags s cy ac ov).psw.getLsbD k = s.psw.getLsbD k := by
  intro k hk
  obtain ⟨h8, h7, h6, h2⟩ : k < 8 ∧ k ≠ 7 ∧ k ≠ 6 ∧ k ≠ 2 := by revert k; decide
  rw [getLsbD_psw_setArithFlags s cy ac ov h8, if_neg h7, if_neg h6, if_neg h2]

theorem setArithFlags_storesOnlyAt (s : State) (cy ac ov : Bool) :
    StoresOnlyAt s (setArithFlags s cy ac ov) [pswUnified] :=
  fun _ hu => stored_setPsw_ne s _ (List.ne_of_not_mem_cons hu)

/-- Settles O38: each bit of PSW as `getLsbD_psw_setArithFlags` gives it, and the frame of one write of PSW. -/
theorem arithFlagsGoToTheirPswBits : Obligations.ArithFlagsGoToTheirPswBits := by
  intro s cy ac ov
  have hbit {k : Nat} (hk : k < 8) := getLsbD_psw_setArithFlags s cy ac ov hk
  exact ⟨hbit (k := 7) (by decide), hbit (k := 6) (by decide), hbit (k := 2) (by decide),
    getLsbD_psw_setArithFlags_kept s cy ac ov, setArithFlags_storesOnlyAt s cy ac ov,
    (setArithFlags_sameFixedPart s cy ac ov).toSameControl, ⟨rfl, rfl, rfl⟩, rfl, rfl⟩

end Sys2Proof.Machine

/-! SUPPORT. The statement of 60_exceptions.md on the debug snapshot (R174). -/

namespace Sys2Proof.Machine

/-- A register is the internal RAM byte at 8 times the bank plus its number, 0x00 where that byte is absent. -/
theorem regRead_eq_iramAt (s : State) (n : Byte) :
    regRead s n =
      if 8 * (s.psw.toNat / 8 % 4) + n.toNat % 8 < s.variant.ramSize then
        s.iramAt (8 * (s.psw.toNat / 8 % 4) + n.toNat % 8)
      else 0x00 := by
  rw [regRead_eq_stored, stored_below s (regUnified_lt s n), regUnified_toNat, regAddr_toNat]

/-- The snapshot lists the registers in the order of their numbers. -/
theorem debugSnapshot_registers (s : State) :
    (debugSnapshot s).registers = (List.range 8).map fun n => regRead s (BitVec.ofNat 8 n) := rfl

theorem debugSnapshot_registers_getD (s : State) {n : Nat} (h : n < 8) :
    (debugSnapshot s).registers.getD n 0 = regRead s (BitVec.ofNat 8 n) := by
  simp [debugSnapshot_registers, h]

/-- Settles O52: PSW, ACC and SP are the bytes of the window they name, and the registers are read as
`regRead_eq_iramAt` gives them. -/
theorem snapshotShowsTheCurrentBank : Obligations.SnapshotShowsTheCurrentBank := by
  refine fun s => ⟨rfl, rfl, rfl, rfl, rfl, fun n hn => ?_⟩
  have hnum : (BitVec.ofNat 8 n).toNat % 8 = n := by
    rw [BitVec.toNat_ofNat]; omega
  rw [debugSnapshot_registers_getD s hn, regRead_eq_iramAt, hnum]
  rfl

end Sys2Proof.Machine

/-! SUPPORT. The statements of 30_encoding.md on the opcode map and the decoder: the 45 first bytes (R84), the 211
others (R86), and that decoding and encoding undo each other (sections 2 to 4). -/

namespace Sys2Proof.Machine

/-! ### The opcode map (R84, R86) -/

/-- Settles O3: over the 256 first bytes. -/
theorem opcodeRowsCover45ValuesWithoutOverlap : Obligations.OpcodeRowsCover45ValuesWithoutOverlap :=
  ⟨rfl, rfl, by decide, by decide⟩

/-- The opcode map has a row for a first byte exactly when the byte is one of the 45. -/
theorem isSome_lookupOpcode : ∀ op : Byte, (lookupOpcode op).isSome = decide (op ∈ firstBytes) := by decide

theorem lookupOpcode_eq_none {op : Byte} : lookupOpcode op = none ↔ op ∉ firstBytes := by
  rw [← Option.not_isSome_iff_eq_none, isSome_lookupOpcode, decide_eq_true_iff]

/-- A row that a first byte selects is one of the map, and the byte agrees with its pattern. -/
theorem lookupOpcode_eq_some {op : Byte} {r : OpcodeRow} (h : lookupOpcode op = some r) :
    r ∈ opcodeMap ∧ op &&& r.mask = r.pattern :=
  ⟨List.mem_of_find?_eq_some h, by simpa [rowMatches] using List.find?_some h⟩

/-- Settles O4: no row, no instruction. -/
theorem otherFirstBytesAreRejectedByName : Obligations.OtherFirstBytesAreRejectedByName := by
  intro op rest h
  simp only [decode, lookupOpcode_eq_none.2 h]

/-- Settles O5: each word runs through the decoder. -/
theorem wordsOfTheOpcodeTableDecode : Obligations.WordsOfTheOpcodeTableDecode :=
  ⟨rfl, rfl, rfl, rfl, rfl, rfl, rfl, rfl⟩

/-! ### Decoding an encoding (R81, R82) -/

/-- The high byte and the low byte of a word, put together, are the word. -/
theorem extractLsb'_append_extractLsb' (a : Word) :
    (a.extractLsb' 8 8 ++ a.extractLsb' 0 8 : Word) = a := by
  rw [BitVec.extractLsb'_append_extractLsb'_eq_extractLsb' (by decide)]
  exact BitVec.extractLsb'_eq_self

theorem isRegister_cases {n : Byte} (h : isRegister n = true) :
    n = 0 ∨ n = 1 ∨ n = 2 ∨ n = 3 ∨ n = 4 ∨ n = 5 ∨ n = 6 ∨ n = 7 := by
  revert n; decide

theorem isPointer_cases {i : Byte} (h : isPointer i = true) : i = 0 ∨ i = 1 := by
  revert i; decide

/-- Settles O1: a fixed first byte selects its row by computation, and a register field has 8 values, a pointer
field 2. -/
theorem decodeOfEncodeGivesTheInstruction : Obligations.DecodeOfEncodeGivesTheInstruction := by
  intro i rest hwf
  cases i with
  | ljmp addr =>
    have hdec : decode (encode (.ljmp addr) ++ rest) =
        .ok (.ljmp (addr.extractLsb' 8 8 ++ addr.extractLsb' 0 8), rest) := rfl
    rw [hdec, extractLsb'_append_extractLsb']
  | sjmp | movAImm | movDirImm | addADir | movADir | movDirA | setb | clr => rfl
  | movRnImm n | movARn n | movRnA n | djnz n =>
    rcases isRegister_cases hwf with rfl | rfl | rfl | rfl | rfl | rfl | rfl | rfl <;> rfl
  | movAInd i | movIndA i => rcases isPointer_cases hwf with rfl | rfl <;> rfl

/-! ### Encoding what decodes (R80, R82, R87) -/

/-- Field `n` is a register number. -/
theorem isRegister_fieldN (op : Byte) : isRegister (fieldN op) = true := by
  rw [isRegister, decide_eq_true_iff, fieldN, and_0x7_toNat]
  exact Nat.mod_lt _ (by decide)

/-- Field `i` is a pointer number. -/
theorem isPointer_fieldI (op : Byte) : isPointer (fieldI op) = true := by
  revert op; decide

/-- A byte is its bits under a mask plus the others. -/
theorem and_add_and_not (x m : Byte) : (x &&& m) + (x &&& ~~~m) = x := by
  have hdisjoint : (x &&& m) &&& (x &&& ~~~m) = 0#8 := by
    ext k hk
    simp only [BitVec.getElem_and, BitVec.getElem_not, BitVec.getElem_zero]
    grind
  rw [BitVec.add_eq_or_of_and_eq_zero _ _ hdisjoint, ← BitVec.and_or_distrib_left, BitVec.or_not_self,
    BitVec.and_allOnes]

theorem wellFormed_buildFrom {r : OpcodeRow} (hr : r ∈ opcodeMap) (op : Byte) (bs : List Byte) :
    (buildFrom r op bs).wellFormed = true := by
  revert r
  simp [opcodeMap, buildFrom, Instr.wellFormed, isRegister_fieldN, isPointer_fieldI]

theorem take_one_eq {bs : List Byte} (h : 1 ≤ bs.length) : bs.take 1 = [bs.getD 0 0] := by
  match bs, h with
  | _ :: _, _ => rfl

theorem take_two_eq {bs : List Byte} (h : 2 ≤ bs.length) : bs.take 2 = [bs.getD 0 0, bs.getD 1 0] := by
  match bs, h with
  | _ :: _ :: _, _ => rfl

theorem extractLsb'_append (hi lo : Byte) :
    (hi ++ lo : Word).extractLsb' 8 8 = hi ∧ (hi ++ lo : Word).extractLsb' 0 8 = lo :=
  ⟨BitVec.extractLsb'_append_eq_left, BitVec.extractLsb'_append_eq_right⟩

/-- The instruction a row makes of a byte under its pattern encodes to that byte, which is the pattern plus the
field outside the mask, and the operand bytes of the row's format. -/
theorem encode_buildFrom {r : OpcodeRow} (hr : r ∈ opcodeMap) {op : Byte} (hop : op &&& r.mask = r.pattern)
    {bs : List Byte} (hlen : formatOperands r.format ≤ bs.length) :
    encode (buildFrom r op bs) = op :: bs.take (formatOperands r.format) := by
  have hbyte : r.pattern + (op &&& ~~~r.mask) = op := hop ▸ and_add_and_not op r.mask
  clear hop
  revert r
  simp +contextual [opcodeMap, buildFrom, encode, formatOperands, fieldN, fieldI, take_one_eq, take_two_eq,
    extractLsb'_append]

/-- Settles O2: what decodes was built by a row of the map from its own bytes. -/
theorem encodeOfDecodeGivesTheBytes : Obligations.EncodeOfDecodeGivesTheBytes := by
  intro bytes rest i h
  cases bytes with
  | nil => cases h
  | cons op bs =>
    obtain ⟨r, hr, hlen, rfl⟩ := decode_cons_eq_ok h
    obtain ⟨hmem, hop⟩ := lookupOpcode_eq_some hr
    obtain rfl : bs.drop (formatOperands r.format) = rest := by
      rw [decode_cons_of_lookup hr hlen] at h
      cases h
      rfl
    refine ⟨wellFormed_buildFrom hmem op bs, ?_⟩
    rw [encode_buildFrom hmem hop hlen, List.cons_append, List.take_append_drop]

end Sys2Proof.Machine

/-! SUPPORT. The statements on one step: fetching (20_memory.md section 8, 30_encoding.md section 6), the halt of a
reserved first byte and the safety of a step (60_exceptions.md section 1), the clock cycles returned
(70_reset_and_hazards.md section 4), parity (10_state.md section 4), and the placed word. -/

namespace Sys2Proof.Machine

/-! ### Fetching -/

/-- The masked address is pc modulo the size of the program space. -/
theorem fetchAddr_toNat (v : Variant) (pc : Word) :
    (fetchAddr v pc).toNat = if v.progW.val = 0 then pc.toNat else pc.toNat % 2 ^ v.progW.val := by
  have hw : 2 ^ v.progW.val ≤ 2 ^ 16 := Nat.pow_le_pow_right (by decide) (by omega)
  have hpos : 0 < 2 ^ v.progW.val := Nat.two_pow_pos _
  unfold fetchAddr
  split
  · rfl
  · rw [BitVec.toNat_and, BitVec.toNat_ofNat, Nat.mod_eq_of_lt (by omega), Nat.and_two_pow_sub_one_eq_mod]

/-- Settles O7: the address read is `fetchAddr_toNat`'s, and pc is one more. -/
theorem fetchByteMasksReadsAndIncrements : Obligations.FetchByteMasksReadsAndIncrements := by
  intro s a
  have haddr : s.nextAddr.toNat = a := fetchAddr_toNat s.variant s.pc
  have hpc : s.nextAddr + 1 = BitVec.ofNat 16 (a + 1) := by
    rw [BitVec.ofNat_add, ← haddr, BitVec.ofNat_toNat, BitVec.setWidth_eq]; rfl
  exact ⟨congrArg s.prog.read haddr, congrArg s.setPc hpc⟩

/-- A first byte that is no instruction is fetched alone. -/
theorem fetchInstr_of_not_mem {s : State} (h : (fetchByte s).1 ∉ firstBytes) :
    fetchInstr s = .unimplemented (fetchByte s).1 s.nextAddr (fetchByte s).2 := by
  simp only [fetchInstr, lookupOpcode_eq_none.2 h]

/-- One of the 45 first bytes, with the two bytes after it, decodes. -/
theorem exists_decode_of_mem {op : Byte} {bs : List Byte} (h : op ∈ firstBytes) (hlen : 2 ≤ bs.length) :
    ∃ i rest, decode (op :: bs) = .ok (i, rest) := by
  obtain ⟨r, hr⟩ := Option.isSome_iff_exists.1 ((isSome_lookupOpcode op).trans (decide_eq_true h))
  have hoperands : formatOperands r.format ≤ 2 := by cases r.format <;> decide
  exact ⟨_, _, decode_cons_of_lookup hr (hoperands.trans hlen)⟩

/-! ### The step by its first byte -/

/-- A fetching engine halts on a first byte that is no instruction. -/
theorem step_of_not_mem {s : State} (hrun : s.run = .fetching) (h : (fetchByte s).1 ∉ firstBytes) :
    step s = .next (haltUnimplemented (fetchByte s).2 (fetchByte s).1 s.nextAddr) := by
  simp only [step, hrun, fetchInstr_of_not_mem h]

/-- Every instruction completes. -/
theorem exec_completes (i : Instr) (s : State) : ∃ t, exec i s = .next t :=
  (exec_sameFixedPart i s).imp fun _ h => h.1

/-- No instruction halts or wakes the engine. -/
theorem exec_run {i : Instr} {s t : State} (h : exec i s = .next t) : t.run = s.run := by
  obtain ⟨u, hu, hsame⟩ := exec_sameFixedPart i s
  obtain rfl : u = t := Host.Outcome.next.inj (hu.symm.trans h)
  exact hsame.run

/-- A fetching engine executes and completes the instruction that one of the 45 first bytes begins. -/
theorem step_of_mem {s : State} (hrun : s.run = .fetching) (h : (fetchByte s).1 ∈ firstBytes) :
    ∃ i rest u, decode (fetchBytes 3 s).1 = .ok (i, rest) ∧ exec i (fetchBytes i.length s).2 = .next u ∧
      step s = .next (completeStep i u) := by
  obtain ⟨i, rest, hdec⟩ :=
    exists_decode_of_mem (bs := (fetchBytes 2 (fetchByte s).2).1) h (fetchBytes_length 2 _).ge
  obtain ⟨u, hu⟩ := exec_completes i (fetchBytes i.length s).2
  refine ⟨i, rest, u, hdec, hu, ?_⟩
  rw [step_of_decode hrun hdec, hu]
  rfl

theorem fetchBytes_run (k : Nat) (s : State) : (fetchBytes k s).2.run = s.run := by
  rw [fetchBytes_state]

/-- What a step that answers a next state did, by the run state it left: still fetching, it completed the
instruction at pc; else it halted. -/
theorem step_eq_next_by_run {s t : State} (h : step s = .next t) :
    ((fetchByte s).1 ∈ firstBytes ∧ t.run = .fetching ∧
        ∃ i rest u, decode (fetchBytes 3 s).1 = .ok (i, rest) ∧ exec i (fetchBytes i.length s).2 = .next u ∧
          t = completeStep i u) ∨
      ((fetchByte s).1 ∉ firstBytes ∧ t.run ≠ .fetching ∧
        t = haltUnimplemented (fetchByte s).2 (fetchByte s).1 s.nextAddr) := by
  obtain ⟨hrun, -⟩ := step_cases h
  by_cases hmem : (fetchByte s).1 ∈ firstBytes
  · obtain ⟨i, rest, u, hdec, hu, hstep⟩ := step_of_mem hrun hmem
    obtain rfl : completeStep i u = t := Host.Outcome.next.inj (hstep.symm.trans h)
    exact .inl ⟨hmem, by rw [completeStep_run, exec_run hu, fetchBytes_run, hrun], i, rest, u, hdec, hu, rfl⟩
  · obtain rfl := Host.Outcome.next.inj ((step_of_not_mem hrun hmem).symm.trans h)
    exact .inr ⟨hmem, by simp, rfl⟩

/-- Settles O8: `completeStep` is the parity recomputation and the clock cycles. -/
theorem stepRunsTheDecodedInstruction : Obligations.StepRunsTheDecodedInstruction := by
  intro s t i rest hrun hdec hexec
  rw [step_of_decode hrun hdec, hexec]
  rfl

/-- Settles O9: the step is the halt after one fetch. -/
theorem reservedFirstByteHaltsTheEngine : Obligations.ReservedFirstByteHaltsTheEngine :=
  fun _ hrun h => step_of_not_mem hrun h

theorem step_of_halted {s : State} {op : Byte} {addr : Word} (h : s.run = .halted op addr) :
    step s = .fault (.unimplementedOpcode op addr) := by
  simp only [step, h]

/-- Settles O10: by the run state. -/
theorem haltedStepAnswersTheRecordedFault : Obligations.HaltedStepAnswersTheRecordedFault :=
  fun _ _ _ h => step_of_halted h

/-- A fetching engine answers a next state. -/
theorem step_of_fetching {s : State} (hrun : s.run = .fetching) : ∃ t, step s = .next t := by
  by_cases hmem : (fetchByte s).1 ∈ firstBytes
  · obtain ⟨i, _, u, -, -, hstep⟩ := step_of_mem hrun hmem
    exact ⟨_, hstep⟩
  · exact ⟨_, step_of_not_mem hrun hmem⟩

/-- Settles O11: the first byte decides whether the next state still fetches. -/
theorem fetchingStepCompletesExactlyOnInstructions : Obligations.FetchingStepCompletesExactlyOnInstructions := by
  intro s hrun
  obtain ⟨t, ht⟩ := step_of_fetching hrun
  refine ⟨t, ht, ?_⟩
  rcases step_eq_next_by_run ht with ⟨hmem, hfetch, -⟩ | ⟨hno, hhalt, -⟩
  · exact iff_of_true hfetch hmem
  · exact iff_of_false hhalt hno

/-- Settles O12: a fetching engine answers a next state, a halted one its recorded fault. -/
theorem noStepRefusesOrLeavesTheArrays : Obligations.NoStepRefusesOrLeavesTheArrays := by
  intro s
  cases hrun : s.run with
  | fetching =>
    obtain ⟨t, ht⟩ := step_of_fetching hrun
    simp [ht]
  | halted op addr => simp [step_of_halted hrun]

/-! ### Clock cycles (70_reset_and_hazards.md R204) -/

/-- A row of the opcode map builds instructions of one duration, whatever bytes it is given. -/
theorem clockCycles_buildFrom {r : OpcodeRow} (hr : r ∈ opcodeMap) (op op' : Byte) (bs bs' : List Byte) :
    clockCycles (buildFrom r op bs) = clockCycles (buildFrom r op' bs') := by
  revert r
  simp [opcodeMap, buildFrom, clockCycles, machineCycles]

/-- The duration of the row a first byte selects. -/
theorem clockCycles_of_lookup : ∀ op : Byte, ∀ r ∈ lookupOpcode op,
    clockCycles (buildFrom r 0 []) =
      if op ∈ [0x02, 0x80, 0x75, 0xD8, 0xD9, 0xDA, 0xDB, 0xDC, 0xDD, 0xDE, 0xDF] then 24 else 12 := by
  decide

/-- Settles O13: the first byte selects the row, and the row has one duration. -/
theorem completedStepReturnsClockCycles : Obligations.CompletedStepReturnsClockCycles := by
  intro s t h hfetch
  rcases step_eq_next_by_run h with ⟨-, -, i, rest, u, hdec, -, rfl⟩ | ⟨-, hhalt, -⟩
  · obtain ⟨r, hr, -, rfl⟩ := decode_cons_eq_ok (bs := (fetchBytes 2 (fetchByte s).2).1) hdec
    rw [completeStep_result, clockCycles_buildFrom (lookupOpcode_eq_some hr).1 _ 0 _ [], clockCycles_of_lookup _ r hr]
  · exact absurd hfetch hhalt

/-! ### Parity (10_state.md R19) -/

/-- The parity of a byte is 1 for an odd number of ones. -/
theorem parity_eq_odd : ∀ a : Byte, parity a = ((List.range 8).countP (fun k => a.getLsbD k) % 2 == 1) := by
  decide

theorem flagBit_zero (x : Bool) : flagBit x 0 = if x then 1 else 0 := by cases x <;> rfl

theorem psw_recomputeParity (s : State) :
    (recomputeParity s).psw = (s.psw &&& 0xFE) ||| flagBit (parity s.acc) 0 := psw_setPsw s _

/-- Settles O20: the recomputation is one write of PSW, it ends a completing step, and a halt writes no SFR. -/
theorem parityFollowsTheAccumulator : Obligations.ParityFollowsTheAccumulator := by
  unfold Obligations.ParityFollowsTheAccumulator
  intro odd
  have hodd (a : Byte) : odd a = parity a := (parity_eq_odd a).symm
  refine ⟨fun s => ?_, ?_, ?_⟩
  · refine ⟨?_, ?_, ?_, ⟨rfl, rfl, rfl⟩, (recomputeParity_sameFixedPart s).toSameControl, rfl, rfl⟩
    · rw [psw_recomputeParity, flagBit_zero, hodd]
    · exact fun u hu => stored_setPsw_ne s _ (List.ne_of_not_mem_cons hu)
    · exact fun o ho => (sfrAt_setSfr s pswOffset _ o).trans (if_neg ho)
  · intro s t h hfetch
    rcases step_eq_next_by_run h with ⟨-, -, i, rest, u, hdec, hexec, rfl⟩ | ⟨-, hhalt, -⟩
    · refine ⟨?_, i, rest, u, hdec, hexec, rfl⟩
      rw [hodd, getLsbD_psw_completeStep_zero, acc_completeStep]
    · exact absurd hfetch hhalt
  · intro s t h hhalt
    rcases step_eq_next_by_run h with ⟨-, hfetch, -⟩ | ⟨-, -, rfl⟩
    · exact absurd hfetch hhalt
    · rfl

/-! ### The placed word -/

/-- Masked addresses are pc modulo a divisor of 2^16, of 4 or more unless the program bus has 1 bit. -/
theorem exists_fetchAddr_mod {v : Variant} (h : v.progW.val = 0 ∨ 2 ≤ v.progW.val) :
    ∃ m, 4 ≤ m ∧ m ∣ 2 ^ 16 ∧ ∀ pc : Word, (fetchAddr v pc).toNat = pc.toNat % m := by
  by_cases h0 : v.progW.val = 0
  · refine ⟨2 ^ 16, by decide, Nat.dvd_refl _, fun pc => ?_⟩
    rw [fetchAddr_toNat, if_pos h0, Nat.mod_eq_of_lt pc.isLt]
  · have h2 : 2 ≤ v.progW.val := h.resolve_left h0
    have h4 : 2 ^ 2 ≤ 2 ^ v.progW.val := Nat.pow_le_pow_right (by decide) h2
    refine ⟨2 ^ v.progW.val, h4, Nat.pow_dvd_pow 2 (by omega), fun pc => ?_⟩
    rw [fetchAddr_toNat, if_neg h0]

/-- The masked address after a masked one is the next, or 0 at the end of the program space. -/
theorem succ_mod_of_lt {x m : Nat} (h : x < m) : (x + 1) % m = if x + 1 = m then 0 else x + 1 := by
  split
  · next he => rw [he, Nat.mod_self]
  · exact Nat.mod_eq_of_lt (by omega)

/-- Three fetches in a row read three distinct addresses. -/
theorem fetchAddr_distinct {v : Variant} (h : v.progW.val = 0 ∨ 2 ≤ v.progW.val) (pc : Word) :
    let a0 := fetchAddr v pc
    let a1 := fetchAddr v (a0 + 1)
    let a2 := fetchAddr v (a1 + 1)
    a1.toNat ≠ a0.toNat ∧ a2.toNat ≠ a0.toNat ∧ a2.toNat ≠ a1.toNat := by
  intro a0 a1 a2
  obtain ⟨m, hm, hdvd, hmod⟩ := exists_fetchAddr_mod h
  have hlt (a : Word) : (fetchAddr v a).toNat < m := hmod a ▸ Nat.mod_lt _ (by omega)
  have hsucc (a : Word) (ha : a.toNat < m) :
      (fetchAddr v (a + 1)).toNat = if a.toNat + 1 = m then 0 else a.toNat + 1 := by
    rw [hmod, BitVec.toNat_add, Nat.mod_mod_of_dvd _ hdvd]
    exact succ_mod_of_lt ha
  have h1 : a1.toNat = if a0.toNat + 1 = m then 0 else a0.toNat + 1 := hsucc a0 (hlt pc)
  have h2 : a2.toNat = if a1.toNat + 1 = m then 0 else a1.toNat + 1 := hsucc a1 (hlt _)
  grind

/-- Three fetches read at the address of each fetch in turn. -/
theorem fetchBytes_three (s : State) :
    let a1 := fetchAddr s.variant (s.nextAddr + 1)
    let a2 := fetchAddr s.variant (a1 + 1)
    (fetchBytes 3 s).1 = [s.prog.read s.nextAddr.toNat, s.prog.read a1.toNat, s.prog.read a2.toNat] := rfl

/-- Bytes written at three distinct addresses are read there. -/
theorem Memory.read_three_writes (m : Memory) {a0 a1 a2 : Nat} (b0 b1 b2 : Byte) (h10 : a1 ≠ a0) (h20 : a2 ≠ a0)
    (h21 : a2 ≠ a1) :
    let p := ((m.write a2 b2).write a1 b1).write a0 b0
    [Memory.read p a0, Memory.read p a1, Memory.read p a2] = [b0, b1, b2] := by
  intro p
  rw [Memory.read_write_same, Memory.read_write_ne _ _ h10, Memory.read_write_same,
    Memory.read_write_ne _ _ h20, Memory.read_write_ne _ _ h21, Memory.read_write_same]

/-- Settles O15: three fetches read three distinct addresses, and each of them holds the byte placed there. -/
theorem placedWordIsFetchedNext : Obligations.PlacedWordIsFetchedNext := by
  intro s nbits w h
  obtain ⟨h10, h20, h21⟩ := fetchAddr_distinct h s.pc
  exact ⟨(fetchBytes_three _).trans (Memory.read_three_writes s.prog _ _ _ h10 h20 h21), rfl⟩

end Sys2Proof.Machine

/-! SUPPORT. The statements of 20_memory.md on what an access reads, stores and does at the ports: port reads and
SFR writes (R43, R44), reads after writes (R53, R54, section 11), the form `byte.k` (30_encoding.md section 7),
and the port events of an instruction and of a step (R55, R56, section 11). -/

namespace Sys2Proof.Machine

/-! ### Ports -/

theorem isPortByte_portOffset (p : Fin 4) : isPortByte (portOffset p) = true := by
  revert p; decide

theorem exists_portOffset_of_isPortByte {d : Byte} (h : isPortByte d = true) : ∃ p, d = portOffset p := by
  revert d; decide

theorem SameBoundary.refl (s : State) : SameBoundary s s := ⟨rfl, rfl, rfl⟩

theorem drawPin_samplesOnce (s : State) (p : Fin 4) : SamplesOnce s (drawPin s p) p := ⟨rfl, rfl, rfl⟩

/-! ### What data memory holds -/

/-- The stored bytes depend on the variant and the two arrays alone. -/
theorem stored_congr {s t : State} (hv : t.variant = s.variant) (hi : t.iram = s.iram) (hs : t.sfr = s.sfr) :
    StoresNothing s t := by
  intro u
  simp only [State.stored, State.iramAt, State.sfrAt, hv, hi, hs]

theorem readByte_storesNothing (s : State) (u : Word) : StoresNothing s (readByte s u).2 := by
  rcases readByte_state s u with h | ⟨p, -, h⟩ <;> rw [h]
  · exact fun _ => rfl
  · exact stored_congr rfl rfl rfl

theorem StoresNothing.only {s t : State} (h : StoresNothing s t) (us : List Word) : StoresOnlyAt s t us :=
  fun u _ => h u

theorem writeByte_storesOnlyAt (s : State) (u : Word) (v : Byte) : StoresOnlyAt s (writeByte s u v) [u] :=
  fun _ hw => stored_writeByte_ne s v (List.ne_of_not_mem_cons hw)

/-! ### The read-modify-write flag in accesses -/

@[simp] theorem readByte_rmw (s : State) (u : Word) : (readByte s u).2.rmw = s.rmw := by
  rcases readByte_state s u with h | ⟨p, -, h⟩ <;> simp [h]

@[simp] theorem writeByte_rmw (s : State) (u : Word) (v : Byte) : (writeByte s u v).rmw = s.rmw := by
  rcases writeByte_cases s u v with h | ⟨-, h⟩ | ⟨o, -, -, ⟨-, h⟩ | ⟨p, -, h⟩⟩ <;> simp [h]

/-! ### Port reads (R43) -/

/-- A read of a port outside a read-modify-write. -/
theorem sfrRead_port (s : State) (p : Fin 4) (h : s.rmw = false) :
    sfrRead s (portOffset p) = (s.sfrAt (portOffset p) &&& nextPin s p, drawPin s p) := by
  simp [sfrRead, portAt_portOffset, h]

/-- A read that samples no pin gives the stored byte and changes nothing. -/
theorem sfrRead_stored {s : State} {o : Byte} (h : isPortByte o = false ∨ s.rmw = true) :
    sfrRead s o = (s.sfrAt o, s) := by
  rcases sfrRead_cases s o with ⟨he, -⟩ | ⟨p, rfl, hr, -⟩
  · exact he
  · simp [isPortByte_portOffset, hr] at h

/-- Settles O29: the two kinds of read of the window, and the answer to a sample. -/
theorem portReadsAreLatchAndPins : Obligations.PortReadsAreLatchAndPins := by
  intro s
  refine ⟨fun p hr => ?_, fun p hr => sfrRead_stored (.inr hr), fun o ho => sfrRead_stored (.inl ho),
    fun p v vs ha hp => nextPin_queued ha hp p, fun p hu => nextPin_unbound hu p⟩
  rw [sfrRead_port s p hr]
  exact ⟨rfl, drawPin_samplesOnce s p, (drawPin_sameFixedPart s p).toSameControl, stored_congr rfl rfl rfl⟩

/-! ### SFR writes (R44) -/

/-- A write of a port latch stores its byte and drives the port. -/
theorem sfrWrite_port (s : State) (p : Fin 4) (v : Byte) :
    sfrWrite s (portOffset p) v = portDrive (s.setSfr (portOffset p) v) p v := by
  rw [sfrWrite, if_neg (BitVec.not_lt.2 (portOffset_ge p)), portAt_portOffset]

theorem sfrWrite_not_port (s : State) {o : Byte} (v : Byte) (h : 0x80 ≤ o) (hp : isPortByte o = false) :
    sfrWrite s o v = s.setSfr o v := by
  rw [sfrWrite, if_neg (BitVec.not_lt.2 h), portAt_eq_none.2 hp]

theorem sfrWrite_boundary (s : State) {o : Byte} (v : Byte) (h : 0x80 ≤ o) :
    BoundaryOfWrite s (sfrWrite s o v) o v := by
  refine ⟨?_, fun hp => ?_⟩
  · rintro p rfl
    rw [sfrWrite_port]
    exact ⟨rfl, rfl, rfl⟩
  · rw [sfrWrite_not_port s v h hp]
    exact ⟨rfl, rfl, rfl⟩

theorem sfrAt_sfrWrite (s : State) {o : Byte} (v o' : Byte) (h : 0x80 ≤ o) :
    (sfrWrite s o v).sfrAt o' = if o' = o then v else s.sfrAt o' := by
  rcases sfrWrite_cases s o v with ⟨hlow, -⟩ | ⟨-, -, he⟩ | ⟨p, -, -, he⟩
  · exact absurd h (BitVec.not_le.2 hlow)
  · rw [he, sfrAt_setSfr]
  · rw [he, sfrAt_portDrive, sfrAt_setSfr]

/-- Settles O30: below 0x80 nothing, above one stored byte and a port's drive. -/
theorem sfrWritesStoreAndDrivePorts : Obligations.SfrWritesStoreAndDrivePorts := by
  intro s o v
  refine ⟨fun hlow => if_pos (BitVec.lt_def.2 hlow), fun hhigh => ?_⟩
  have h80 : 0x80 ≤ o := BitVec.le_def.2 hhigh
  have hdirect : sfrWrite s o v = writeByte s (directAddr o) v := (writeDirect_high s v h80).symm
  refine ⟨?_, fun o' ho' => ?_, ?_, ?_, ?_, sfrWrite_boundary s v h80⟩
  · rw [sfrAt_sfrWrite s v o h80, if_pos rfl]
  · rw [sfrAt_sfrWrite s v o' h80, if_neg ho']
  · rcases sfrWrite_cases s o v with ⟨-, he⟩ | ⟨-, -, he⟩ | ⟨p, -, -, he⟩ <;> rw [he] <;> rfl
  · rw [hdirect, writeByte_pc]
  · exact hdirect ▸ (writeByte_sameFixedPart s _ v).toSameControl

/-! ### Direct reads and writes -/

/-- A direct address is below 0x80 or in the window. -/
theorem direct_low_or_high (d : Byte) : d < 0x80 ∨ 0x80 ≤ d :=
  (em (d < 0x80)).imp_right BitVec.not_lt.1

theorem directAddr_low_lt {d : Byte} (h : d < 0x80) : (directAddr d).toNat < 0x100 :=
  directAddr_low h ▸ d.isLt

/-- A direct read below 0x80 gives the stored byte and changes nothing. -/
theorem readDirect_low (s : State) {d : Byte} (h : d < 0x80) : readDirect s d = (s.stored (directAddr d), s) := by
  rw [readDirect, readByte_below s (directAddr_low_lt h), stored_below s (directAddr_low_lt h)]

/-- A direct read that samples no pin gives the stored byte and changes nothing. -/
theorem readDirect_stored {s : State} {d : Byte} (h : isPortByte d = false ∨ s.rmw = true) :
    readDirect s d = (s.stored (directAddr d), s) := by
  rcases direct_low_or_high d with hlow | hhigh
  · exact readDirect_low s hlow
  · rw [readDirect_high s hhigh, sfrRead_stored h, stored_directAddr_high s hhigh]

theorem readDirect_port (s : State) (p : Fin 4) (h : s.rmw = false) :
    readDirect s (portOffset p) = (s.sfrAt (portOffset p) &&& nextPin s p, drawPin s p) := by
  rw [readDirect_high s (portOffset_ge p), sfrRead_port s p h]

theorem readDirect_boundary (s : State) (d : Byte) : BoundaryOfRead s (readDirect s d).2 d := by
  refine ⟨?_, fun h => ?_⟩
  · rintro p rfl hr
    rw [readDirect_port s p hr]
    exact drawPin_samplesOnce s p
  · rw [readDirect_stored h]
    exact .refl s

/-- A write below 0x100 reaches no port. -/
theorem writeByte_below_boundary (s : State) {u : Word} (v : Byte) (h : u.toNat < 0x100) :
    SameBoundary s (writeByte s u v) := by
  rw [writeByte_below s v h]
  split <;> exact ⟨rfl, rfl, rfl⟩

theorem writeDirect_boundary (s : State) (d v : Byte) : BoundaryOfWrite s (writeDirect s d v) d v := by
  rcases direct_low_or_high d with hlow | hhigh
  · refine ⟨?_, fun _ => writeByte_below_boundary s v (directAddr_low_lt hlow)⟩
    rintro p rfl
    exact absurd (portOffset_ge p) (BitVec.not_le.2 hlow)
  · rw [writeDirect_high s v hhigh]
    exact sfrWrite_boundary s v hhigh

/-- Where there is storage, a direct write stores its byte. -/
theorem stored_writeDirect_same {s : State} {d : Byte} (v : Byte) (h : DirectExists s.variant d) :
    (writeDirect s d v).stored (directAddr d) = v := by
  rcases direct_low_or_high d with hlow | hhigh
  · have hlt := directAddr_low_lt hlow
    have hram : (directAddr d).toNat < s.variant.ramSize := by
      rw [directAddr_low hlow]
      exact h.resolve_left (BitVec.not_le.2 hlow)
    rw [writeDirect, writeByte_ram s v hram, stored_below _ hlt, State.setIram_variant, if_pos hram, iramAt_setIram,
      if_pos rfl]
  · rw [stored_directAddr_high _ hhigh, writeDirect_high s v hhigh, sfrAt_sfrWrite s v d hhigh, if_pos rfl]

/-- Where there is no storage, a direct write does nothing. -/
theorem writeDirect_absent {s : State} {d : Byte} (v : Byte) (h : ¬ DirectExists s.variant d) :
    writeDirect s d v = s := by
  obtain ⟨hhigh, hram⟩ := not_or.1 h
  have hlow : d < 0x80 := BitVec.not_le.1 hhigh
  refine writeByte_nothing s v ?_ (.inl (directAddr_low_lt hlow))
  rw [directAddr_low hlow]
  exact Nat.le_of_not_lt hram

/-- Settles O31: what a direct write stores, read back. -/
theorem directReadAfterWrite : Obligations.DirectReadAfterWrite := by
  intro s d v
  refine ⟨fun h hp => ?_, stored_writeDirect_same v, writeByte_storesOnlyAt s _ v⟩
  rw [readDirect_stored (.inl hp), stored_writeDirect_same v h]

/-! ### Bit addresses (R51 to R54) -/

theorem bitPos_lt (b : Byte) : bitPos b < 8 := by
  rw [bitPos, and_0x7_toNat]
  exact Nat.mod_lt _ (by decide)

/-- A bit write is a direct write of the stored byte, for a port its latch, with one bit changed. -/
theorem writeBit_eq (s : State) (b : Byte) (x : Bool) :
    writeBit s b x = (writeDirect (s.setRmw true) (bitByteAddr b)
      (withBit (s.stored (directAddr (bitByteAddr b))) (bitPos b) x)).setRmw false := by
  have hread : readDirect (s.setRmw true) (bitByteAddr b) = (s.stored (directAddr (bitByteAddr b)), s.setRmw true) :=
    readDirect_stored (.inr rfl)
  simp only [writeBit, hread]

/-- Where the byte exists, a bit write changes one bit of it. -/
theorem stored_writeBit_same {s : State} {b : Byte} (x : Bool) (h : DirectExists s.variant (bitByteAddr b)) :
    (writeBit s b x).stored (directAddr (bitByteAddr b)) =
      withBit (s.stored (directAddr (bitByteAddr b))) (bitPos b) x := by
  rw [writeBit_eq]
  exact stored_writeDirect_same (s := s.setRmw true) _ h

/-- Settles O36: the byte read is the one written, with the bit in it. -/
theorem bitReadAfterBitWrite : Obligations.BitReadAfterBitWrite := by
  intro s b x h hp
  rw [readBit, readDirect_stored (.inl hp), stored_writeBit_same x h, getLsbD_withBit _ x (bitPos_lt b), if_pos rfl]

theorem bitAddressOf_bitByteAddr : ∀ b : Byte, bitAddressOf (bitByteAddr b) ⟨bitPos b, bitPos_lt b⟩ = some b := by
  decide

/-- The bit address that `byte.k` stands for, in plain arithmetic. -/
theorem toNat_of_bitAddressOf {byte b : Byte} {k : Fin 8} (h : bitAddressOf byte k = some b) :
    (0x20 ≤ byte.toNat ∧ byte.toNat < 0x30 ∧ b.toNat = (byte.toNat - 0x20) * 8 + k) ∨
      (0x80 ≤ byte.toNat ∧ byte.toNat % 8 = 0 ∧ b.toNat = byte.toNat + k) := by
  have hk := k.isLt
  have hbyte := byte.isLt
  unfold bitAddressOf at h
  split at h
  · next hlow =>
    have hle := hlow.1
    obtain ⟨h20, h30⟩ : 0x20 ≤ byte.toNat ∧ byte.toNat < 0x30 := hlow
    cases h
    refine .inl ⟨h20, h30, ?_⟩
    rw [BitVec.toNat_add, BitVec.toNat_mul, BitVec.toNat_sub_of_le hle, BitVec.toNat_ofNat]
    simp only [BitVec.reduceToNat]
    omega
  · split at h
    · next hhigh =>
      have h80 : 0x80 ≤ byte.toNat := hhigh.1
      have hmultiple : byte.toNat % 8 = 0 := by rw [← and_0x7_toNat, hhigh.2]; rfl
      cases h
      refine .inr ⟨h80, hmultiple, ?_⟩
      rw [BitVec.toNat_add, BitVec.toNat_ofNat]
      omega
    · cases h

/-- Settles O35: the resolver divides by 8 what the assembler multiplied, in each of the two regions. -/
theorem byteDotBitNamesTheBitAddress : Obligations.ByteDotBitNamesTheBitAddress := by
  intro b byte k
  have hk := k.isLt
  constructor
  · intro h
    have hpos : bitPos b = b.toNat % 8 := and_0x7_toNat b
    rcases toNat_of_bitAddressOf h with ⟨h20, h30, hb⟩ | ⟨h80, hmultiple, hb⟩
    · refine ⟨BitVec.eq_of_toNat_eq ?_, by omega⟩
      rw [bitByteAddr_low_toNat (by omega)]
      omega
    · refine ⟨BitVec.eq_of_toNat_eq ?_, by omega⟩
      rw [bitByteAddr_high_toNat (by omega)]
      omega
  · rintro ⟨rfl, hk⟩
    obtain rfl : ⟨bitPos b, bitPos_lt b⟩ = k := Fin.ext hk
    exact bitAddressOf_bitByteAddr b

/-! ### The boundary through several operations -/

theorem SameBoundary.trans {s t u : State} (h : SameBoundary s t) (h' : SameBoundary t u) : SameBoundary s u :=
  ⟨h'.pins.trans h.pins, h'.pinDraws.trans h.pinDraws, h'.events.trans h.events⟩

theorem SamplesOnce.trans_same {s t u : State} {p : Fin 4} (h : SamplesOnce s t p) (h' : SameBoundary t u) :
    SamplesOnce s u p :=
  ⟨h'.pins.trans h.pins, h'.pinDraws.trans h.pinDraws, h'.events.trans h.events⟩

theorem DrivesOnce.trans_same {s t u : State} {p : Fin 4} {v : Byte} (h : DrivesOnce s t p v)
    (h' : SameBoundary t u) : DrivesOnce s u p v :=
  ⟨h'.pins.trans h.pins, h'.pinDraws.trans h.pinDraws, h'.events.trans h.events⟩

theorem BoundaryOfRead.trans_same {s t u : State} {d : Byte} (h : BoundaryOfRead s t d) (h' : SameBoundary t u) :
    BoundaryOfRead s u d :=
  ⟨fun p hp hr => (h.1 p hp hr).trans_same h', fun hn => (h.2 hn).trans h'⟩

theorem BoundaryOfWrite.trans_same {s t u : State} {d v : Byte} (h : BoundaryOfWrite s t d v)
    (h' : SameBoundary t u) : BoundaryOfWrite s u d v :=
  ⟨fun p hp => (h.1 p hp).trans_same h', fun hn => (h.2 hn).trans h'⟩

/-- A direct read samples at most once, and only a port. -/
theorem BoundaryOfRead.cases {s t : State} {d : Byte} (h : BoundaryOfRead s t d) :
    SameBoundary s t ∨ isPortByte d = true ∧ ∃ p, SamplesOnce s t p := by
  obtain ⟨hport, hsame⟩ := h
  cases hp : isPortByte d with
  | false => exact .inl (hsame (.inl hp))
  | true =>
    obtain ⟨p, hd⟩ := exists_portOffset_of_isPortByte hp
    cases hr : s.rmw with
    | false => exact .inr ⟨rfl, p, hport p hd hr⟩
    | true => exact .inl (hsame (.inr hr))

/-- A direct write drives at most once, and only a port. -/
theorem BoundaryOfWrite.cases {s t : State} {d v : Byte} (h : BoundaryOfWrite s t d v) :
    SameBoundary s t ∨ isPortByte d = true ∧ ∃ p v, DrivesOnce s t p v := by
  obtain ⟨hport, hsame⟩ := h
  cases hp : isPortByte d with
  | false => exact .inl (hsame hp)
  | true =>
    obtain ⟨p, hd⟩ := exists_portOffset_of_isPortByte hp
    exact .inr ⟨rfl, p, v, hport p hd⟩

theorem indirectAddr_lt (a : Byte) : (indirectAddr a).toNat < 0x100 := indirectAddr_toNat a ▸ a.isLt

theorem regWrite_boundary (s : State) (n v : Byte) : SameBoundary s (regWrite s n v) :=
  writeByte_below_boundary s v (regUnified_lt s n)

theorem writeIndirect_boundary (s : State) (a v : Byte) : SameBoundary s (writeIndirect s a v) :=
  writeByte_below_boundary s v (indirectAddr_lt a)

/-- A register-indirect read changes nothing. -/
theorem readIndirect_state (s : State) (a : Byte) : (readIndirect s a).2 = s := by
  rw [readIndirect, readByte_below s (indirectAddr_lt a)]

theorem readIndirect_boundary (s : State) (a : Byte) : SameBoundary s (readIndirect s a).2 :=
  (readIndirect_state s a).symm ▸ .refl s

theorem setAcc_boundary (s : State) (v : Byte) : SameBoundary s (s.setAcc v) := ⟨rfl, rfl, rfl⟩

theorem setArithFlags_boundary (s : State) (cy ac ov : Bool) : SameBoundary s (setArithFlags s cy ac ov) :=
  ⟨rfl, rfl, rfl⟩

theorem writeBit_boundary (s : State) (b : Byte) (x : Bool) :
    BoundaryOfWrite s (writeBit s b x) (bitByteAddr b)
      (withBit (s.stored (directAddr (bitByteAddr b))) (bitPos b) x) := by
  rw [writeBit_eq]
  obtain ⟨hport, hsame⟩ := writeDirect_boundary (s.setRmw true) (bitByteAddr b)
    (withBit (s.stored (directAddr (bitByteAddr b))) (bitPos b) x)
  exact ⟨fun p hp => ⟨(hport p hp).pins, (hport p hp).pinDraws, (hport p hp).events⟩,
    fun hn => ⟨(hsame hn).pins, (hsame hn).pinDraws, (hsame hn).events⟩⟩

/-- A bit of a port is a bit whose address less its position is the port's. -/
theorem isPortByte_bitByteAddr : ∀ b : Byte, isPortByte (bitByteAddr b) = isPortByte (b &&& 0xF8) := by decide

/-- A bit write drives at most once, and only a port of which the bit address names a bit. -/
theorem writeBit_boundary_cases (s : State) (b : Byte) (x : Bool) :
    SameBoundary s (writeBit s b x) ∨
      isPortByte (b &&& 0xF8) = true ∧ ∃ p v, DrivesOnce s (writeBit s b x) p v :=
  isPortByte_bitByteAddr b ▸ (writeBit_boundary s b x).cases

end Sys2Proof.Machine

/-! SUPPORT. The statements of 42_arithmetic.md on the adder (R120) and on `ADD A,direct` (R123). -/

namespace Sys2Proof.Machine

/-! ### The adder (R120) -/

/-- A bit of the 9-bit sum: the two operand bits and the carry into the place. -/
theorem getLsbD_sum9 (a b : Byte) (cin : Bool) {k : Nat} (hk : k < 9) :
    (sum9 a b cin).getLsbD k =
      ((a.setWidth 9).getLsbD k ^^ ((b.setWidth 9).getLsbD k ^^ BitVec.carry k (a.setWidth 9) (b.setWidth 9) cin)) :=
  BitVec.getLsbD_add_add_bool hk _ _ _

/-- Bit `k` of the carry vector is the carry into bit `k`. -/
theorem getLsbD_carryVector (a b : Byte) (cin : Bool) {k : Nat} (hk : k < 9) :
    (carryVector a b cin).getLsbD k = decide (2 ^ k ≤ a.toNat % 2 ^ k + b.toNat % 2 ^ k + cin.toNat) := by
  have hcarry : BitVec.carry k (a.setWidth 9) (b.setWidth 9) cin =
      decide (2 ^ k ≤ a.toNat % 2 ^ k + b.toNat % 2 ^ k + cin.toNat) := by
    simp only [BitVec.carry, BitVec.toNat_setWidth_of_le (show 8 ≤ 9 by decide), ge_iff_le]
  rw [carryVector, BitVec.getLsbD_xor, BitVec.getLsbD_xor, getLsbD_sum9 a b cin hk, ← hcarry]
  grind

/-- Bit 8 of the sum is the carry out of bit 7. -/
theorem getLsbD_sum9_top (a b : Byte) (cin : Bool) :
    (sum9 a b cin).getLsbD 8 = decide (2 ^ 8 ≤ a.toNat + b.toNat + cin.toNat) := by
  have ha := a.isLt
  have hb := b.isLt
  have h := getLsbD_carryVector a b cin (k := 8) (by decide)
  rw [Nat.mod_eq_of_lt ha, Nat.mod_eq_of_lt hb] at h
  rw [← h, carryVector]
  simp

theorem sum9_toNat (a b : Byte) (cin : Bool) : (sum9 a b cin).toNat = a.toNat + b.toNat + cin.toNat := by
  have ha := a.isLt
  have hb := b.isLt
  have hc := cin.toNat_lt
  simp only [sum9, BitVec.toNat_add, BitVec.toNat_setWidth, BitVec.toNat_ofBool]
  omega

/-- Settles O37: each flag is a carry or a comparison of two carries. -/
theorem adderMeansArithmetic : Obligations.AdderMeansArithmetic := by
  intro a b cin r
  have ha := a.isLt
  have hb := b.isLt
  refine ⟨?_, ?_, ?_, ?_⟩
  · rw [show r.sum = (sum9 a b cin).setWidth 8 from rfl, BitVec.toNat_setWidth, sum9_toNat]
  · rw [show r.cy = (sum9 a b cin).getLsbD 8 from rfl, getLsbD_sum9_top]
    exact decide_eq_decide.2 Iff.rfl
  · rw [show r.ac = (carryVector a b cin).getLsbD 4 from rfl, getLsbD_carryVector a b cin (by decide)]
    exact decide_eq_decide.2 Iff.rfl
  · rw [show r.ov = ((carryVector a b cin).getLsbD 8 ^^ (carryVector a b cin).getLsbD 7) from rfl,
      getLsbD_carryVector a b cin (by decide), getLsbD_carryVector a b cin (by decide), BitVec.toInt_eq_toNat_cond,
      BitVec.toInt_eq_toNat_cond]
    have hc := cin.toNat_lt
    rw [Bool.eq_iff_iff]
    simp only [Bool.xor_iff_ne, ne_eq, decide_eq_decide, decide_eq_true_eq]
    split_ifs <;> omega

/-- The adder with no carry in. -/
theorem addWithCarry_false (a b : Byte) :
    let r := addWithCarry a b false
    r.sum.toNat = (a.toNat + b.toNat) % 256 ∧ r.cy = decide (a.toNat + b.toNat > 255) ∧
      r.ac = decide (a.toNat % 16 + b.toNat % 16 > 15) ∧
      r.ov = decide (a.toInt + b.toInt < -128 ∨ a.toInt + b.toInt > 127) := by
  simpa using adderMeansArithmetic a b false

/-! ### `ADD A,direct` (R123) -/

@[simp] theorem acc_setArithFlags (s : State) (cy ac ov : Bool) : (setArithFlags s cy ac ov).acc = s.acc :=
  acc_setPsw s _

theorem acc_readDirect (s : State) (d : Byte) : (readDirect s d).2.acc = s.acc := sfrAt_congr (readDirect_sfr s d) _

theorem psw_readDirect (s : State) (d : Byte) : (readDirect s d).2.psw = s.psw := sfrAt_congr (readDirect_sfr s d) _

/-- The state after `ADD A,direct`: the operand's read, then the adder's sum and flags. -/
theorem exec_addADir (s : State) (d : Byte) :
    let r := addWithCarry s.acc (readDirect s d).1 false
    exec (.addADir d) s = .next (setArithFlags ((readDirect s d).2.setAcc r.sum) r.cy r.ac r.ov) := by
  simp only [exec, execAddADir, acc_readDirect]

/-- Settles O39: the adder's four outputs stored in the accumulator and in PSW. -/
theorem addDirectAddsToTheAccumulator : Obligations.AddDirectAddsToTheAccumulator := by
  intro s d
  obtain ⟨hsum, hcy, hac, hov⟩ := addWithCarry_false s.acc (readDirect s d).1
  refine ⟨_, exec_addADir s d, ?_, ?_, ?_, ?_, fun k hk => ?_, fun u hu => ?_, ?_, ?_, readDirect_pc s d, ?_⟩
  · rw [acc_setArithFlags, acc_setAcc, hsum]
  · rw [getLsbD_psw_setArithFlags _ _ _ _ (by decide), if_pos rfl, hcy]
  · rw [getLsbD_psw_setArithFlags _ _ _ _ (by decide), if_neg (by decide), if_pos rfl, hac]
  · rw [getLsbD_psw_setArithFlags _ _ _ _ (by decide), if_neg (by decide), if_neg (by decide), if_pos rfl, hov]
  · rw [getLsbD_psw_setArithFlags_kept _ _ _ _ k hk, psw_setAcc, psw_readDirect]
  · obtain ⟨hua, hup⟩ : u ≠ accUnified ∧ u ≠ pswUnified := by simpa using hu
    calc _ = ((readDirect s d).2.setAcc _).stored u := stored_setPsw_ne _ _ hup
      _ = (readDirect s d).2.stored u := stored_setAcc_ne _ _ hua
      _ = s.stored u := readByte_storesNothing s _ u
  · exact (readDirect_boundary s d).trans_same ((setAcc_boundary _ _).trans (setArithFlags_boundary _ _ _ _))
  · exact ((readByte_sameFixedPart s _).trans
      ((setAcc_sameFixedPart _ _).trans (setArithFlags_sameFixedPart _ _ _ _))).toSameControl
  · exact readByte_rmw s _

/-- The carries of a byte added to itself are bits of the byte. -/
theorem double_carries : ∀ a : Byte,
    decide (a.toNat + a.toNat > 255) = a.getLsbD 7 ∧ decide (a.toNat % 16 + a.toNat % 16 > 15) = a.getLsbD 3 ∧
      decide (a.toInt + a.toInt < -128 ∨ a.toInt + a.toInt > 127) = (a.getLsbD 7 ^^ a.getLsbD 6) := by
  decide

/-- Settles O40: the operand at 0xE0 is the accumulator itself. -/
theorem addAccumulatorToItselfDoublesIt : Obligations.AddAccumulatorToItselfDoublesIt := by
  intro s
  have hread : (readDirect s 0xE0).1 = s.acc := by
    rw [readDirect_stored (.inl (by decide)), stored_directAddr_high s (by decide)]
    rfl
  obtain ⟨t, ht, hsum, hcy, hac, hov, -⟩ := addDirectAddsToTheAccumulator s 0xE0
  rw [hread] at hsum hcy hac hov
  obtain ⟨h7, h3, h76⟩ := double_carries s.acc
  exact ⟨t, ht, by rw [hsum, Nat.two_mul], hcy.trans h7, hac.trans h3, hov.trans h76⟩

end Sys2Proof.Machine

/-! SUPPORT. The statements on the port events of an instruction and of a step (20_memory.md sections 8 and 11), and
on what an instruction can see of its environment (20_memory.md section 8, 60_exceptions.md section 1). -/

namespace Sys2Proof.Machine

/-! ### The events of an instruction (R55, R56) -/

/-- What an instruction does at the boundary: nothing, or one sample if it reads pins, or one drive if it drives a
port. -/
def BoundaryOfInstr (i : Instr) (s t : State) : Prop :=
  SameBoundary s t ∨ (i.readsPins = true ∧ ∃ p, SamplesOnce s t p) ∨
    (i.drivesPort = true ∧ ∃ p v, DrivesOnce s t p v)

/-- What every instruction does at the boundary. -/
theorem exec_boundary (i : Instr) (s : State) : ∃ t, exec i s = .next t ∧ BoundaryOfInstr i s t := by
  cases i with
  | ljmp | sjmp | movAImm | movARn => exact ⟨_, rfl, .inl ⟨rfl, rfl, rfl⟩⟩
  | djnz n rel =>
    have hw := regWrite_boundary s n (dec8 (regRead s n))
    refine ⟨_, rfl, .inl ?_⟩
    split
    · exact hw.trans ⟨rfl, rfl, rfl⟩
    · exact hw
  | movADir d =>
    exact ⟨_, rfl, ((readDirect_boundary s d).trans_same (setAcc_boundary _ _)).cases.imp_right .inl⟩
  | addADir d =>
    exact ⟨_, rfl, ((readDirect_boundary s d).trans_same
      ((setAcc_boundary _ _).trans (setArithFlags_boundary _ _ _ _))).cases.imp_right .inl⟩
  | movAInd p => exact ⟨_, rfl, .inl ((readIndirect_boundary s _).trans (setAcc_boundary _ _))⟩
  | movDirImm d v => exact ⟨_, rfl, (writeDirect_boundary s d v).cases.imp_right .inr⟩
  | movDirA d => exact ⟨_, rfl, (writeDirect_boundary s d s.acc).cases.imp_right .inr⟩
  | movRnImm | movRnA => exact ⟨_, rfl, .inl (regWrite_boundary ..)⟩
  | movIndA => exact ⟨_, rfl, .inl (writeIndirect_boundary ..)⟩
  | setb b => exact ⟨_, rfl, (writeBit_boundary_cases s b true).imp_right .inr⟩
  | clr b => exact ⟨_, rfl, (writeBit_boundary_cases s b false).imp_right .inr⟩

/-- An instruction appends at most one event. -/
theorem BoundaryOfInstr.appends {i : Instr} {s t : State} (h : BoundaryOfInstr i s t) :
    ∃ new : List Event, t.events = s.events ++ new ∧ new.length ≤ 1 := by
  rcases h with h | ⟨-, p, h⟩ | ⟨-, p, v, h⟩
  · exact ⟨[], by rw [h.events, List.append_nil], Nat.zero_le 1⟩
  · exact ⟨_, h.events, Nat.le_refl 1⟩
  · exact ⟨_, h.events, Nat.le_refl 1⟩

/-- Settles O23: a step appends what its instruction appends, and the halt nothing. -/
theorem stepAppendsAtMostOneEvent : Obligations.StepAppendsAtMostOneEvent := by
  intro s t h
  obtain ⟨a, ⟨op, addr, rfl⟩ | ⟨i, u, hu, rfl⟩⟩ := step_eq_next_cases h
  · exact ⟨[], by simp, Nat.zero_le 1⟩
  · obtain ⟨w, hw, hboundary⟩ := exec_boundary i (s.setPc a)
    obtain rfl : w = u := Host.Outcome.next.inj (hw.symm.trans hu)
    exact hboundary.appends

/-- Settles O24: the three cases of `BoundaryOfInstr`. -/
theorem onlyListedInstructionsTouchThePorts : Obligations.OnlyListedInstructionsTouchThePorts := by
  intro i s
  obtain ⟨t, ht, h | ⟨hi, p, h⟩ | ⟨hi, p, v, h⟩⟩ := exec_boundary i s
  · refine ⟨t, [], ht, by rw [h.events, List.append_nil], fun _ => ⟨h.pins, h.pinDraws, ?_⟩, ?_,
      fun _ _ => h.events⟩ <;> simp
  · refine ⟨t, _, ht, h.events, ?_, ?_, ?_⟩ <;> simp [hi]
  · refine ⟨t, _, ht, h.events, fun _ => ⟨h.pins, h.pinDraws, ?_⟩, ?_, ?_⟩ <;> simp [hi]

/-! ### What an instruction sees of its environment (R55, decision D17; 60_exceptions.md R165) -/

/-- A change of the environment's side that the operations of an instruction neither see nor undo: it keeps what they
read, and commutes with what they write. -/
structure ActsOutside (f : State → State) : Prop where
  variant : ∀ s, (f s).variant = s.variant
  pc : ∀ s, (f s).pc = s.pc
  iram : ∀ s, (f s).iram = s.iram
  sfr : ∀ s, (f s).sfr = s.sfr
  setIram_comm : ∀ s a v, (f s).setIram a v = f (s.setIram a v)
  setSfr_comm : ∀ s o v, (f s).setSfr o v = f (s.setSfr o v)
  setPc_comm : ∀ s a, (f s).setPc a = f (s.setPc a)
  setRmw_comm : ∀ s x, (f s).setRmw x = f (s.setRmw x)
  portDrive_comm : ∀ s p v, portDrive (f s) p v = f (portDrive s p v)

section

variable {f : State → State}

theorem ActsOutside.stored_eq (hf : ActsOutside f) (s : State) : StoresNothing s (f s) :=
  stored_congr (hf.variant s) (hf.iram s) (hf.sfr s)

theorem ActsOutside.acc_eq (hf : ActsOutside f) (s : State) : (f s).acc = s.acc := sfrAt_congr (hf.sfr s) _

theorem ActsOutside.psw_eq (hf : ActsOutside f) (s : State) : (f s).psw = s.psw := sfrAt_congr (hf.sfr s) _

theorem ActsOutside.regUnified_eq (hf : ActsOutside f) (s : State) (n : Byte) :
    regUnified (f s) n = regUnified s n := regUnified_congr (hf.psw_eq s) n

theorem ActsOutside.regRead_eq (hf : ActsOutside f) (s : State) (n : Byte) : regRead (f s) n = regRead s n := by
  rw [regRead_eq_stored, regRead_eq_stored, hf.regUnified_eq, hf.stored_eq]

theorem ActsOutside.setAcc_comm (hf : ActsOutside f) (s : State) (v : Byte) : (f s).setAcc v = f (s.setAcc v) :=
  hf.setSfr_comm s _ v

theorem ActsOutside.setArithFlags_comm (hf : ActsOutside f) (s : State) (cy ac ov : Bool) :
    setArithFlags (f s) cy ac ov = f (setArithFlags s cy ac ov) := by
  rw [setArithFlags, hf.psw_eq]
  exact hf.setSfr_comm s _ _

theorem ActsOutside.writeByte_comm (hf : ActsOutside f) (s : State) (u : Word) (v : Byte) :
    writeByte (f s) u v = f (writeByte s u v) := by
  simp only [writeByte, sfrWrite, hf.variant]
  cases route s.variant u with
  | ram a => exact hf.setIram_comm s a v
  | nothing => rfl
  | window o =>
    dsimp only
    split
    · rfl
    · cases portAt o with
      | none => exact hf.setSfr_comm s o v
      | some p => dsimp only; rw [hf.setSfr_comm, hf.portDrive_comm]

theorem ActsOutside.regWrite_comm (hf : ActsOutside f) (s : State) (n v : Byte) :
    regWrite (f s) n v = f (regWrite s n v) := by
  rw [regWrite, hf.regUnified_eq, hf.writeByte_comm]
  rfl

theorem ActsOutside.writeBit_comm (hf : ActsOutside f) (s : State) (b : Byte) (x : Bool) :
    writeBit (f s) b x = f (writeBit s b x) := by
  rw [writeBit_eq, writeBit_eq, hf.stored_eq, hf.setRmw_comm, writeDirect, hf.writeByte_comm, hf.setRmw_comm]
  rfl

theorem ActsOutside.readIndirect_comm (hf : ActsOutside f) (s : State) (a : Byte) :
    readIndirect (f s) a = ((readIndirect s a).1, f (readIndirect s a).2) := by
  simp only [readIndirect, readByte_below _ (indirectAddr_lt a), hf.variant, State.iramAt, hf.iram]

theorem ActsOutside.readDirect_comm (hf : ActsOutside f) (s : State) {d : Byte} (h : isPortByte d = false) :
    readDirect (f s) d = ((readDirect s d).1, f (readDirect s d).2) := by
  rw [readDirect_stored (.inl h), readDirect_stored (.inl h), hf.stored_eq]

/-- An instruction does the same before and after such a change, if its direct reads do where it reads pins. -/
theorem ActsOutside.exec_comm (hf : ActsOutside f) {i : Instr} {s t : State}
    (hpins : i.readsPins = true → ∀ d, readDirect (f s) d = ((readDirect s d).1, f (readDirect s d).2))
    (h : exec i s = .next t) : exec i (f s) = .next (f t) := by
  have hread {d : Byte} (hi : i.readsPins = isPortByte d) :
      readDirect (f s) d = ((readDirect s d).1, f (readDirect s d).2) := by
    cases hp : isPortByte d with
    | false => exact hf.readDirect_comm s hp
    | true => exact hpins (hi.trans hp) d
  cases i <;> cases h
  case ljmp => simp only [exec, execLjmp, hf.setPc_comm]
  case sjmp => simp only [exec, execSjmp, hf.pc, hf.setPc_comm]
  case djnz n rel =>
    simp only [exec, execDjnz, hf.regRead_eq, hf.regWrite_comm, hf.pc, hf.setPc_comm]
    split <;> rfl
  case movAImm => exact congrArg _ (hf.setAcc_comm s _)
  case movARn => simp only [exec, execMovARn, hf.regRead_eq, hf.setAcc_comm]
  case movAInd => simp only [exec, execMovAInd, hf.regRead_eq, hf.readIndirect_comm, hf.setAcc_comm]
  case movADir d => simp only [exec, execMovADir, hread rfl, hf.setAcc_comm]
  case addADir d => simp only [exec, execAddADir, hread rfl, hf.acc_eq, hf.setAcc_comm, hf.setArithFlags_comm]
  case movDirImm => exact congrArg _ (hf.writeByte_comm s _ _)
  case movDirA => simp only [exec, execMovDirA, writeDirect, hf.acc_eq, hf.writeByte_comm]
  case movRnImm => exact congrArg _ (hf.regWrite_comm s _ _)
  case movRnA => simp only [exec, execMovRnA, hf.acc_eq, hf.regWrite_comm]
  case movIndA => simp only [exec, execMovIndA, writeIndirect, hf.acc_eq, hf.regRead_eq, hf.writeByte_comm]
  case setb => exact congrArg _ (hf.writeBit_comm s _ _)
  case clr => exact congrArg _ (hf.writeBit_comm s _ _)

end

/-- The state with another source of pin levels: another attachment, other queued pins, another draw counter. -/
def State.withPinSource (ports : PortBoundary) (pins : List Byte) (draws : Nat) (s : State) : State :=
  { s with ports := ports, pins := pins, pinDraws := draws }

theorem withPinSource_actsOutside (ports : PortBoundary) (pins : List Byte) (draws : Nat) :
    ActsOutside (State.withPinSource ports pins draws) := by
  constructor <;> intros <;> rfl

/-- Settles O25: another source of pin levels is unseen outside a port read. -/
theorem pinsAreUnseenWithoutAPortRead : Obligations.PinsAreUnseenWithoutAPortRead := by
  intro i s t ports pins draws hi h
  exact (withPinSource_actsOutside ports pins draws).exec_comm (fun hreads => by simp [hi] at hreads) h

/-- The state with earlier events before its own. -/
def State.withEarlier (earlier : List Event) (s : State) : State := { s with events := earlier ++ s.events }

theorem withEarlier_actsOutside (earlier : List Event) : ActsOutside (State.withEarlier earlier) where
  variant _ := rfl
  pc _ := rfl
  iram _ := rfl
  sfr _ := rfl
  setIram_comm _ _ _ := rfl
  setSfr_comm _ _ _ := rfl
  setPc_comm _ _ := rfl
  setRmw_comm _ _ := rfl
  portDrive_comm s p v := by simp [portDrive, State.withEarlier]

/-- A pin sample is answered whatever events went before. -/
theorem readDirect_withEarlier (earlier : List Event) (s : State) (d : Byte) :
    readDirect (s.withEarlier earlier) d = ((readDirect s d).1, (readDirect s d).2.withEarlier earlier) := by
  have hf := withEarlier_actsOutside earlier
  cases hp : isPortByte d with
  | false => exact hf.readDirect_comm s hp
  | true =>
    obtain ⟨p, rfl⟩ := exists_portOffset_of_isPortByte hp
    cases hr : s.rmw with
    | false =>
      have hdraw : drawPin (s.withEarlier earlier) p = (drawPin s p).withEarlier earlier := by
        simp [drawPin, State.withEarlier, nextPin, attachedPin]
      rw [readDirect_port _ p (by exact hr), readDirect_port s p hr, hdraw]
      rfl
    | true => rw [readDirect_stored (.inr (by exact hr)), readDirect_stored (.inr hr), hf.stored_eq]

/-- What an instruction does depends on no event that went before, and it keeps them. -/
theorem exec_withEarlier {i : Instr} {s t : State} (earlier : List Event) (h : exec i s = .next t) :
    exec i (s.withEarlier earlier) = .next (t.withEarlier earlier) :=
  (withEarlier_actsOutside earlier).exec_comm (fun _ d => readDirect_withEarlier earlier s d) h

/-- Settles O53: an unbound port answers 0x00, and the events of an instruction are those it appends to an empty
history. -/
theorem unboundEnvironmentReadsZeroAndIgnoresDrives : Obligations.UnboundEnvironmentReadsZeroAndIgnoresDrives := by
  intro s hs
  refine ⟨fun a => by rw [hs.prog]; rfl, fun p hr => ?_, fun i earlier => ?_⟩
  · have hread : sfrRead s (portOffset p) = (0x00, drawPin s p) := by
      rw [sfrRead_port s p hr, nextPin_unbound hs.ports]
      exact congrArg (·, drawPin s p) BitVec.and_zero
    have hdirect : readDirect s (portOffset p) = (0x00, drawPin s p) :=
      (readDirect_high s (portOffset_ge p)).trans hread
    refine ⟨congrArg Prod.fst hread, ⟨_, rfl, by rw [acc_setAcc, hdirect]⟩, ?_⟩
    obtain ⟨t, ht, hsum, -⟩ := addDirectAddsToTheAccumulator s (portOffset p)
    refine ⟨t, ht, BitVec.eq_of_toNat_eq ?_⟩
    rw [hsum, hdirect]
    exact Nat.mod_eq_of_lt s.acc.isLt
  · obtain ⟨t, ht⟩ := exec_completes i { s with events := [] }
    refine ⟨t.withEarlier s.events, t.events, ?_, rfl, ?_⟩
    · simpa [State.withEarlier] using exec_withEarlier s.events ht
    · simpa [State.withEarlier] using exec_withEarlier earlier ht

end Sys2Proof.Machine

/-! SUPPORT. The statements on reset and on the invariant (10_state.md sections 2, 3, 4, 6 and 8,
70_reset_and_hazards.md section 1, 20_memory.md section 8). -/

namespace Sys2Proof.Machine

/-! ### Reset (10_state.md R26) -/

/-- The bytes of the window after reset: the named registers, and any other offset as it was handed in. -/
theorem resetWindow_read (unnamed : Memory) (a : Nat) :
    (resetWindow unnamed).read a =
      if a = 0xB0 then 0xFF else if a = 0xA0 then 0xFF else if a = 0x90 then 0xFF else if a = 0x80 then 0xFF
      else if a = 0x81 then 0x07 else if a = 0xD0 then 0x00 else if a = 0xE0 then 0x00
      else (unnamed.clip 0x100).read a := by
  simp only [resetWindow, Memory.read_write]
  rfl

/-- Settles O16: the fields as `hostReset` sets them, the registers as the window holds them. -/
theorem resetGivesTheNamedValues : Obligations.ResetGivesTheNamedValues := by
  refine ⟨fun v ram unnamed s => ?_, by decide⟩
  refine ⟨rfl, rfl, resetWindow_read unnamed 0xE0, resetWindow_read unnamed 0xD0, resetWindow_read unnamed 0x81,
    fun p => ?_, rfl, rfl, rfl, ⟨rfl, rfl, rfl⟩, rfl, rfl⟩
  refine (resetWindow_read unnamed (portOffset p).toNat).trans ?_
  fin_cases p <;> rfl

/-- A window of canonical entries is canonical after reset, and inside its size. -/
theorem resetWindow_wf {unnamed : Memory} (h : Memory.wf unnamed) :
    Memory.wf (resetWindow unnamed) ∧ Memory.within (resetWindow unnamed) 0x100 := by
  unfold resetWindow
  constructor
  · iterate 7 apply Memory.write_wf
    exact Memory.clip_wf _ _ h
  · iterate 7 refine Memory.write_within _ _ _ _ ?_ (BitVec.isLt _)
    exact Memory.clip_within _ _

/-- Settles O17: cutting and writing keep the canonical form, and PSW and ACC are 0x00. -/
theorem resetMeetsTheInvariant : Obligations.ResetMeetsTheInvariant := by
  refine ⟨⟨by decide, by decide, by decide, by decide, by decide, by decide, by decide, by decide⟩, ?_⟩
  intro v ram unnamed s hram hunnamed hprog hwithin
  obtain ⟨hnamed, -⟩ := resetGivesTheNamedValues
  obtain ⟨-, -, hacc, hpsw, -⟩ := hnamed v ram unnamed s
  obtain ⟨hwf, hsize⟩ := resetWindow_wf hunnamed
  exact {
    iram_wf := Memory.clip_wf _ _ hram
    iram_within := Memory.clip_within _ _
    sfr_wf := hwf
    sfr_within := hsize
    prog_wf := hprog
    prog_within := hwithin
    rmw_clear := rfl
    parity_current := by rw [hacc, hpsw]; rfl }

/-- Settles O51: the byte at 0 is 0x00, which is no instruction. -/
theorem unboundEnvironmentHaltsTheFirstStep : Obligations.UnboundEnvironmentHaltsTheFirstStep := by
  intro v ram unnamed s hs
  have haddr : (hostReset v ram unnamed s).nextAddr = 0 :=
    fetchAddr_of_lt (.inr (Nat.two_pow_pos _))
  have hbyte : (fetchByte (hostReset v ram unnamed s)).1 = 0x00 := by
    simp [fetchByte, hs, Memory.unlisted]
  have hhalt := step_of_not_mem (s := hostReset v ram unnamed s) rfl (by rw [hbyte]; decide)
  rw [hbyte, haddr] at hhalt
  refine ⟨_, hhalt, rfl, ?_, rfl⟩
  simp [fetchByte, haddr]

/-! ### The invariant -/

/-- The arrays are in canonical form and inside their sizes. -/
structure ArraysCanonical (s : State) : Prop where
  iram_wf : Memory.wf s.iram
  iram_within : Memory.within s.iram s.variant.ramSize
  sfr_wf : Memory.wf s.sfr
  sfr_within : Memory.within s.sfr 0x100

/-- States that differ outside the arrays. -/
theorem ArraysCanonical.congr {s t : State} (h : ArraysCanonical s) (hv : t.variant = s.variant)
    (hi : t.iram = s.iram) (hs : t.sfr = s.sfr) : ArraysCanonical t :=
  ⟨hi ▸ h.iram_wf, hi ▸ hv ▸ h.iram_within, hs ▸ h.sfr_wf, hs ▸ h.sfr_within⟩

theorem ArraysCanonical.setIram {s : State} (h : ArraysCanonical s) {a : Nat} (v : Byte)
    (ha : a < s.variant.ramSize) : ArraysCanonical (s.setIram a v) :=
  ⟨Memory.write_wf _ _ _ h.iram_wf, Memory.write_within _ _ _ _ h.iram_within ha, h.sfr_wf, h.sfr_within⟩

theorem ArraysCanonical.setSfr {s : State} (h : ArraysCanonical s) (o v : Byte) : ArraysCanonical (s.setSfr o v) :=
  ⟨h.iram_wf, h.iram_within, Memory.write_wf _ _ _ h.sfr_wf, Memory.write_within _ _ _ _ h.sfr_within o.isLt⟩

theorem ArraysCanonical.setPc {s : State} (h : ArraysCanonical s) (a : Word) : ArraysCanonical (s.setPc a) :=
  h.congr rfl rfl rfl

theorem ArraysCanonical.setRmw {s : State} (h : ArraysCanonical s) (x : Bool) : ArraysCanonical (s.setRmw x) :=
  h.congr rfl rfl rfl

theorem ArraysCanonical.setAcc {s : State} (h : ArraysCanonical s) (v : Byte) : ArraysCanonical (s.setAcc v) :=
  h.setSfr _ v

theorem ArraysCanonical.readByte {s : State} (h : ArraysCanonical s) (u : Word) :
    ArraysCanonical (readByte s u).2 := by
  rcases readByte_state s u with he | ⟨p, -, he⟩ <;> rw [he]
  · exact h
  · exact h.congr rfl rfl rfl

theorem ArraysCanonical.writeByte {s : State} (h : ArraysCanonical s) (u : Word) (v : Byte) :
    ArraysCanonical (writeByte s u v) := by
  rcases writeByte_cases s u v with he | ⟨hu, he⟩ | ⟨o, -, -, ⟨-, he⟩ | ⟨p, -, he⟩⟩ <;> rw [he]
  · exact h
  · exact h.setIram v hu
  · exact h.setSfr o v
  · exact (h.setSfr o v).congr rfl rfl rfl

theorem ArraysCanonical.writeBit {s : State} (h : ArraysCanonical s) (b : Byte) (x : Bool) :
    ArraysCanonical (writeBit s b x) := by
  rw [writeBit_eq]
  exact ((h.setRmw true).writeByte _ _).setRmw false

theorem ArraysCanonical.completeStep {s : State} (h : ArraysCanonical s) (i : Instr) :
    ArraysCanonical (completeStep i s) :=
  (h.setSfr pswOffset ((s.psw &&& 0xFE) ||| flagBit (parity s.acc) 0)).congr rfl rfl rfl

/-- Every instruction keeps the arrays canonical and the read-modify-write flag clear. -/
theorem exec_keeps_arrays (i : Instr) {s : State} (h : ArraysCanonical s) (hr : s.rmw = false) :
    ∃ t, exec i s = .next t ∧ ArraysCanonical t ∧ t.rmw = false := by
  cases i with
  | ljmp | sjmp => exact ⟨_, rfl, h.setPc _, hr⟩
  | djnz n rel =>
    have hw : ArraysCanonical (regWrite s n (dec8 (regRead s n))) := h.writeByte _ _
    have hwr : (regWrite s n (dec8 (regRead s n))).rmw = false := (writeByte_rmw ..).trans hr
    refine ⟨_, rfl, ?_⟩
    split
    · exact ⟨hw.setPc _, hwr⟩
    · exact ⟨hw, hwr⟩
  | movAImm | movARn => exact ⟨_, rfl, h.setAcc _, hr⟩
  | movADir | movAInd => exact ⟨_, rfl, (h.readByte _).setAcc _, (readByte_rmw ..).trans hr⟩
  | addADir => exact ⟨_, rfl, ((h.readByte _).setAcc _).setSfr _ _, (readByte_rmw ..).trans hr⟩
  | movDirImm | movRnImm | movDirA | movRnA | movIndA =>
    exact ⟨_, rfl, h.writeByte _ _, (writeByte_rmw ..).trans hr⟩
  | setb | clr => exact ⟨_, rfl, h.writeBit _ _, rfl⟩

/-- Settles O18: the instruction keeps the arrays and the flag, and the end of the step sets the parity; a halt
changes nothing the invariant speaks of. -/
theorem everyStepKeepsTheInvariant : Obligations.EveryStepKeepsTheInvariant := by
  intro s t hs h
  have hprog := (noStepWritesProgramVariantOrLowWindow s t h).2.1
  have harrays : ArraysCanonical s := ⟨hs.iram_wf, hs.iram_within, hs.sfr_wf, hs.sfr_within⟩
  obtain ⟨a, ⟨op, addr, rfl⟩ | ⟨i, u, hu, rfl⟩⟩ := step_eq_next_cases h
  · exact ⟨hs.iram_wf, hs.iram_within, hs.sfr_wf, hs.sfr_within, hs.prog_wf, hs.prog_within, hs.rmw_clear,
      hs.parity_current⟩
  · obtain ⟨w, hw, hcanonical, hrmw⟩ := exec_keeps_arrays i (harrays.setPc a) hs.rmw_clear
    obtain rfl : w = u := Host.Outcome.next.inj (hw.symm.trans hu)
    obtain ⟨hiram, hramSize, hsfr, hsfrSize⟩ := hcanonical.completeStep i
    refine ⟨hiram, hramSize, hsfr, hsfrSize, hprog ▸ hs.prog_wf, hprog ▸ hs.prog_within, hrmw, ?_⟩
    rw [getLsbD_psw_completeStep_zero, acc_completeStep]

end Sys2Proof.Machine

/-! SUPPORT. The statements on the jumps (40_jumps.md, 45_djnz.md, 30_encoding.md section 7), the loads and the moves
(41_immediate_loads.md, 43_moves.md), the bit instructions (44_bit_ops.md) and the flags (10_state.md section 7). -/

namespace Sys2Proof.Machine

/-! ### Relative targets -/

/-- A relative target is pc plus the signed offset, modulo 2^16. -/
theorem relTarget_eq (pc : Word) (rel : Byte) : relTarget pc rel = BitVec.ofInt 16 (pc.toNat + rel.toInt) := by
  rw [relTarget, BitVec.ofInt_add, BitVec.ofInt_natCast, BitVec.ofNat_toNat, BitVec.setWidth_eq]
  rfl

theorem exec_sjmp (s : State) (rel : Byte) : exec (.sjmp rel) s = .next (s.setPc (relTarget s.pc rel)) := rfl

/-- Settles O41: each is one write of pc. -/
theorem jumpsWriteOnlyPc : Obligations.JumpsWriteOnlyPc := by
  refine ⟨fun _ _ => rfl, fun s rel => ?_⟩
  rw [exec_sjmp, relTarget_eq]
  rfl

/-- A distance within a signed byte survives the cut to a byte and the extension back. -/
theorem signExtend_setWidth {x : Word} (h : -128 ≤ x.toInt) (h' : x.toInt ≤ 127) :
    (x.setWidth 8).signExtend 16 = x := by
  apply BitVec.eq_of_toInt_eq
  rw [BitVec.toInt_signExtend_of_le (by decide), BitVec.toInt_setWidth, Int.bmod_def]
  rw [BitVec.toInt_eq_toNat_cond] at h h' ⊢
  omega

/-- The offset an assembler writes leads from past the instruction to the target. -/
theorem relTarget_of_assembleRel {a t : Word} {rel : Byte} (h : assembleRel a t = some rel) :
    relTarget (a + 2) rel = t := by
  unfold assembleRel at h
  split at h
  · next hrange =>
    cases h
    rw [relTarget, signExtend_setWidth hrange.1 hrange.2, BitVec.add_comm, BitVec.sub_add_cancel]
  · cases h

theorem setPc_self (s : State) {a : Word} (h : s.pc = a) : s.setPc a = s := by
  subst h; rfl

theorem dec8_eq_zero : ∀ v : Byte, dec8 v = 0 ↔ v = 1 := by decide

/-- What `DJNZ` does: one register write and, unless the result is 0, one write of pc. -/
theorem exec_djnz (s : State) (n rel : Byte) :
    exec (.djnz n rel) s = .next ((regWrite s n (dec8 (regRead s n))).setPc
      (if dec8 (regRead s n) = 0 then s.pc else relTarget s.pc rel)) := by
  simp only [exec, execDjnz, regWrite_pc, ne_eq, ite_not]
  split
  · rw [setPc_self _ (regWrite_pc ..)]
  · rfl

/-- Settles O43: the offset reaches its target from `a + 2`, and a register of 1 is not taken. -/
theorem assembledOffsetReachesItsTarget : Obligations.AssembledOffsetReachesItsTarget := by
  intro s a t rel h hpc
  have htarget : relTarget s.pc rel = t := hpc ▸ relTarget_of_assembleRel h
  refine ⟨by rw [exec_sjmp, htarget], fun n => ?_⟩
  rw [exec_djnz, htarget, hpc]
  simp only [dec8_eq_zero]
  rfl

/-! ### Register writes -/

/-- Where the register's byte is absent, a register write does nothing. -/
theorem regWrite_absent {s : State} {n : Byte} (v : Byte) (h : s.variant.ramSize ≤ (regAddr s n).toNat) :
    regWrite s n v = s :=
  writeByte_nothing s v (regUnified_toNat s n ▸ h) (.inl (regUnified_lt s n))

/-- Where the register's byte exists, a register read after a register write gives the byte written. -/
theorem regRead_regWrite_same {s : State} {n : Byte} (v : Byte) (h : (regAddr s n).toNat < s.variant.ramSize) :
    regRead (regWrite s n v) n = v := by
  rw [regRead_eq_stored, regUnified_congr (psw_regWrite s n v), stored_regWrite_same s v h]

theorem regWrite_storesOnlyAt (s : State) (n v : Byte) : StoresOnlyAt s (regWrite s n v) [regUnified s n] :=
  writeByte_storesOnlyAt s _ v

theorem regWrite_sameControl (s : State) (n v : Byte) : SameControl s (regWrite s n v) :=
  (writeByte_sameFixedPart s _ v).toSameControl

theorem regRead_setPc (s : State) (a : Word) (n : Byte) : regRead (s.setPc a) n = regRead s n := by
  rw [regRead_eq_stored, regRead_eq_stored]
  exact stored_congr rfl rfl rfl (regUnified s n)

theorem dec8_toNat (v : Byte) : dec8 v = BitVec.ofNat 8 (v.toNat + 255) := by
  revert v; decide

/-- Settles O42: a register write of one less, then the branch. -/
theorem djnzDecrementsAndBranches : Obligations.DjnzDecrementsAndBranches := by
  intro s n rel
  refine ⟨_, exec_djnz s n rel, fun h => ?_, fun h => ?_, ?_, regWrite_storesOnlyAt s n _, ?_, ?_, ?_⟩
  · rw [regRead_setPc, regRead_regWrite_same _ h, dec8_toNat]
  · rw [regWrite_absent _ h]
    exact stored_congr rfl rfl rfl
  · rw [State.setPc_pc, relTarget_eq, ← dec8_toNat]
  · exact (regWrite_boundary s n _).trans ⟨rfl, rfl, rfl⟩
  · exact ((writeByte_sameFixedPart s _ _).trans (setPc_sameFixedPart _ _)).toSameControl
  · exact writeByte_rmw s _ _

/-- Settles O48: both are one register write. -/
theorem storesToARegister : Obligations.StoresToARegister := by
  intro s i n v hi
  have hexec : exec i s = .next (regWrite s n v) := by
    rcases hi with rfl | ⟨rfl, rfl⟩ <;> rfl
  refine ⟨_, hexec, regRead_regWrite_same v, fun h => ?_, regWrite_storesOnlyAt s n v, regWrite_boundary s n v,
    regWrite_sameControl s n v, regWrite_pc s n v, writeByte_rmw s _ v⟩
  rw [regWrite_absent v h]
  exact fun _ => rfl

/-! ### Loads of the accumulator -/

theorem setAcc_storesOnlyAt (s : State) (v : Byte) : StoresOnlyAt s (s.setAcc v) [accUnified] :=
  fun _ hu => stored_setAcc_ne s v (List.ne_of_not_mem_cons hu)

/-- Settles O45: each is one write of the accumulator. -/
theorem loadsWriteOnlyTheAccumulator : Obligations.LoadsWriteOnlyTheAccumulator := by
  intro s i v hi
  have hexec : exec i s = .next (s.setAcc v) := by
    rcases hi with rfl | ⟨n, rfl, rfl⟩ | ⟨p, rfl, rfl⟩
    · rfl
    · rfl
    · have hread := readByte_below s (indirectAddr_lt (regRead s p))
      rw [indirectAddr_toNat] at hread
      simp only [exec, execMovAInd, readIndirect, hread]
  exact ⟨_, hexec, acc_setAcc s v, setAcc_storesOnlyAt s v, setAcc_boundary s v,
    (setAcc_sameFixedPart s v).toSameControl, rfl, rfl⟩

/-- Settles O46: a direct read, then one write of the accumulator. -/
theorem movADirectLoadsTheAccumulator : Obligations.MovADirectLoadsTheAccumulator := by
  intro s d
  refine ⟨_, rfl, ?_, fun h => ?_, fun u hu => ?_, (readDirect_boundary s d).trans_same (setAcc_boundary _ _), ?_,
    readDirect_pc s d, readByte_rmw s _⟩
  · rintro p rfl hr
    rw [acc_setAcc, readDirect_port s p hr]
  · rw [acc_setAcc, readDirect_stored h]
  · exact (setAcc_storesOnlyAt _ _ u hu).trans (readByte_storesNothing s _ u)
  · exact ((readByte_sameFixedPart s _).trans (setAcc_sameFixedPart _ _)).toSameControl

/-! ### Stores -/

/-- Settles O47: both are one direct write. -/
theorem storesToADirectAddress : Obligations.StoresToADirectAddress := by
  intro s i d v hi
  have hexec : exec i s = .next (writeDirect s d v) := by
    rcases hi with rfl | ⟨rfl, rfl⟩ <;> rfl
  refine ⟨_, hexec, stored_writeDirect_same v, fun h => ?_, writeByte_storesOnlyAt s _ v, writeDirect_boundary s d v,
    (writeByte_sameFixedPart s _ v).toSameControl, writeDirect_pc s d v, writeByte_rmw s _ v⟩
  rw [writeDirect_absent v h]
  exact fun _ => rfl

/-- Settles O49: one register-indirect write, which is a write of internal RAM or nothing. -/
theorem storeThroughAPointerReachesRamOnly : Obligations.StoreThroughAPointerReachesRamOnly := by
  intro s p
  obtain ⟨hram, habsent, hsfr⟩ := indirectAddressesReachRamOnly s (regRead s p) s.acc
  refine ⟨_, rfl, fun h => ?_, fun h => (habsent h).2, hsfr, writeByte_storesOnlyAt s _ _, fun h => ?_,
    writeIndirect_boundary s _ _, (writeByte_sameFixedPart s _ _).toSameControl, writeIndirect_pc s _ _,
    writeByte_rmw s _ _⟩
  · rw [(hram h).2, iramAt_setIram, if_pos rfl]
  · have hne : regUnified s p ≠ indirectAddr (regRead s p) := by
      intro he
      have hnat := congrArg BitVec.toNat he
      rw [regUnified_toNat, indirectAddr_toNat] at hnat
      exact h (BitVec.eq_of_toNat_eq hnat).symm
    rw [regRead_eq_stored, regUnified_congr (sfrAt_congr hsfr pswOffset), writeIndirect, stored_writeByte_ne _ _ hne,
      regRead_eq_stored]

/-! ### Bit instructions -/

theorem writeBit_storesOnlyAt (s : State) (b : Byte) (x : Bool) :
    StoresOnlyAt s (writeBit s b x) [directAddr (bitByteAddr b)] := by
  rw [writeBit_eq]
  exact writeByte_storesOnlyAt (s.setRmw true) _ _

/-- Settles O50: one bit write. -/
theorem bitInstructionsWriteOneBit : Obligations.BitInstructionsWriteOneBit := by
  intro s i b x hi u
  have hexec : exec i s = .next (writeBit s b x) := by
    rcases hi with ⟨rfl, rfl⟩ | ⟨rfl, rfl⟩ <;> rfl
  have hpos : bitPos b = b.toNat % 8 := and_0x7_toNat b
  obtain ⟨hport, hsame⟩ := writeBit_boundary s b x
  refine ⟨_, hexec, fun h k hk => ?_, fun h => ?_, writeBit_storesOnlyAt s b x, ⟨fun p hp => ?_, hsame⟩,
    (writeBit_sameFixedPart s b x).toSameControl, writeBit_pc s b x, rfl⟩
  · rw [stored_writeBit_same x h, getLsbD_withBit _ x hk, hpos]
  · rw [writeBit_eq, writeDirect_absent (s := s.setRmw true) _ h]
    exact stored_congr rfl rfl rfl
  · have hexists : DirectExists s.variant (bitByteAddr b) := .inl (hp ▸ portOffset_ge p)
    rw [stored_writeBit_same x hexists]
    exact hport p hp

/-! ### Flags (10_state.md R25) -/

theorem psw_eq_stored (s : State) : s.psw = s.stored pswUnified := (stored_directAddr_high s (by decide)).symm

/-- A write elsewhere keeps PSW. -/
theorem StoresOnlyAt.psw {s t : State} {u : Word} (h : StoresOnlyAt s t [u]) (hu : u ≠ pswUnified) :
    t.psw = s.psw := by
  rw [psw_eq_stored, psw_eq_stored]
  exact h _ (by simpa using hu.symm)

theorem bitByteAddr_ne_psw : ∀ b : Byte, (b &&& 0xF8 == 0xD0) = false → bitByteAddr b ≠ pswOffset := by decide

theorem directAddr_ne_psw {d : Byte} (h : d ≠ pswOffset) : directAddr d ≠ pswUnified :=
  fun he => h (directAddr_injective he)

/-- Settles O21: the instructions that do not name PSW store elsewhere, or in the accumulator. -/
theorem onlyAddWritesFlagsAsASideEffect : Obligations.OnlyAddWritesFlagsAsASideEffect := by
  intro i s hadd hnames
  cases i with
  | addADir => cases hadd
  | ljmp | sjmp => exact ⟨_, rfl, rfl⟩
  | djnz n rel => exact ⟨_, exec_djnz s n rel, psw_regWrite s n _⟩
  | movAImm | movARn => exact ⟨_, rfl, psw_setAcc ..⟩
  | movADir d => exact ⟨_, rfl, (psw_setAcc ..).trans (psw_readDirect s d)⟩
  | movAInd p => exact ⟨_, rfl, (psw_setAcc ..).trans (sfrAt_congr (readIndirect_sfr s _) _)⟩
  | movDirImm d | movDirA d =>
    have hd : directAddr d ≠ pswUnified := directAddr_ne_psw (ne_of_beq_false hnames)
    exact ⟨_, rfl, (writeByte_storesOnlyAt s _ _).psw hd⟩
  | movRnImm | movRnA => exact ⟨_, rfl, psw_regWrite ..⟩
  | movIndA => exact ⟨_, rfl, sfrAt_congr (writeIndirect_sfr ..) _⟩
  | setb b | clr b =>
    have hb : directAddr (bitByteAddr b) ≠ pswUnified := directAddr_ne_psw (bitByteAddr_ne_psw b hnames)
    exact ⟨_, rfl, (writeBit_storesOnlyAt s b _).psw hb⟩

end Sys2Proof.Machine
